-- ==== Sys2Proof/Word.lean ====
section
/-! DEFINITION. The words of TM1637-CORE (`00_scope.md` R8, R9) and the names the pin port uses (R10, `10_state.md` R28, R30).
A vector is used only where the spec numbers, masks or shifts bits; everything else is a type of names. -/

namespace Sys2Proof

/-- A transmitted byte, a segment byte, a command code, or the operand field A (R8, R72). -/
abbrev Byte := BitVec 8

/-- The operand field V (R72): unsigned, or two's complement where a rule says signed. -/
abbrev Value := BitVec 32

/-- A host operation word (R70, R71). -/
abbrev OpWord := BitVec 64

/-- A result word (R76). -/
abbrev ResultWord := BitVec 16

/-- A pin level (R10). -/
inductive Level where
  | low
  | high
  deriving DecidableEq, Repr, Inhabited

/-- The two pins, by role: CLK is the pin `CLK_PIN`, DIO the pin `DIO_PIN` (R10). -/
inductive Pin where
  | clk
  | dio
  deriving DecidableEq, Repr

/-- A pin direction (R10). -/
inductive Direction where
  | output
  | input
  deriving DecidableEq, Repr

/-- An event of the pin trace (R30): `Lvl(p, l)`, `Dir(p, d)` or `Rd(p, l)`. -/
inductive PinEvent where
  | lvl (p : Pin) (l : Level)
  | dir (p : Pin) (d : Direction)
  | rd  (p : Pin) (l : Level)
  deriving DecidableEq, Repr

/-- The digit-coding mode (R25): `packedDecimal` is COD = 0 and `rawByte` is COD = 1. -/
inductive Coding where
  | packedDecimal
  | rawByte
  deriving DecidableEq, Repr

end Sys2Proof
end

