-- ==== Sys2Proof/Config.lean ====
section
/-! DEFINITION. The parameters of `00_scope.md` R7 and the environment's free value (`40_transmitter.md` R104).
A configuration is plain data that reset binds (`70_reset_and_hazards.md` R231), so a statement about every state
is a statement about every configuration. -/

namespace Sys2Proof

/-- `NPOS_PHYS` (R7): physical addressable positions. -/
abbrev nposPhys : Nat := 6

/-- `NPOS_LOGICAL` (R7): digits of the display. -/
abbrev nposLogical : Nat := 4

/-- `ROM_ENTRIES` (R7). -/
abbrev romEntries : Nat := 10

/-- The parameters of R7 that the document leaves to whoever builds the block. -/
structure Config where
  /-- `CLK_PIN`, an opaque identifier. -/
  clkPin : Nat
  /-- `DIO_PIN`, an opaque identifier. -/
  dioPin : Nat
  /-- `INIT_BRIGHTNESS`. -/
  initBrightness : Byte
  /-- `RESET_PWR` (OPEN, D21). -/
  resetPwr : Bool
  /-- `INIT_EMITS_BRIGHTNESS` (OPEN, D22). -/
  initEmitsBrightness : Bool
  cmdDataAuto : Byte
  cmdDataFixed : Byte
  cmdDataTest : Byte
  cmdDataReadKeys : Byte
  cmdAddrBase : Byte
  cmdDispOn : Byte
  cmdDispOff : Byte
  deriving DecidableEq, Repr

/-- The defaults. The command codes are R84's, which the spec takes from general knowledge
(PRESUMED, log entry 3, unsafe); the other values are those of `95_test_vectors.md` section 0
(DESIGN CHOICE, log entry 4, unsafe). -/
def Config.default : Config where
  clkPin := 0
  dioPin := 1
  initBrightness := 0
  resetPwr := false
  initEmitsBrightness := false
  cmdDataAuto := 0x40
  cmdDataFixed := 0x44
  cmdDataTest := 0x48
  cmdDataReadKeys := 0x42
  cmdAddrBase := 0xC0
  cmdDispOn := 0x88
  cmdDispOff := 0x80

/-- The identifier of a pin (R10). -/
def Config.pinId (c : Config) : Pin → Nat
  | .clk => c.clkPin
  | .dio => c.dioPin

/-- `ACK_ORACLE` (R7, R104, D26): the level of the n-th sample of DIO where `State.draws` schedules none.
A free value: nothing constrains it (log entry 2, safe). -/
opaque Config.ackOracle : Nat → Level

end Sys2Proof
end

