-- ==== Sys2Proof/Syntax.lean ====
section
/-! DEFINITION. The operations of the block, one constructor for each row of `opcode_table.json` (`30_encoding.md` R73).
Operand names and types follow R72 and the operation's own rule. -/

namespace Sys2Proof

inductive Instr where
  /-- TX_BYTE (R101). -/
  | txByte (b : Byte)
  /-- START (R125). -/
  | start
  /-- STOP (R126). -/
  | stop
  /-- SEND_CMD (R127): `stop` is F0. -/
  | sendCmd (code : Byte) (stop : Bool)
  /-- SEND_DATA (R128): `stop` is F0. -/
  | sendData (b : Byte) (stop : Bool)
  /-- BEGIN_WRITE (R129). -/
  | beginWrite (p : Byte)
  /-- CLEAR (R142). -/
  | clear
  /-- SET_BLANK (R143). -/
  | setBlank (p : Byte)
  /-- TEST_ALL (R144). -/
  | testAll
  /-- SET_INT (R145): `n` is read as two's complement, `colon` is F0. -/
  | setInt (n : Value) (colon : Bool)
  /-- SET_HOURS (R147): `colon` is F0, `zero` is F1. -/
  | setHours (v : Value) (colon zero : Bool)
  /-- SET_MINUTES (R148): `zero` is F1. -/
  | setMinutes (v : Value) (zero : Bool)
  /-- CLOSE (R149). -/
  | close
  /-- DECODE (R175): `i` is the digit index, field A. -/
  | decode (v : Value) (i : Byte)
  /-- SET_CODING (R176): the mode is F0. -/
  | setCoding (mode : Coding)
  /-- SET_POWER (R190): `on` is F0. -/
  | setPower (on : Bool)
  /-- SET_BRIGHT (R191). -/
  | setBright (level : Byte)
  deriving DecidableEq, Repr

end Sys2Proof
end

