-- ==== Sys2Proof/WellFormed.lean ====
section
/-! DEFINITION. Well-formedness. An operation's operands are typed at exactly the width of the field that carries them
(`30_encoding.md` R71, R72) and every value of a field is legal (saturated, clamped or taken as it is: R54, R89, R170),
so every term of `Instr` is well-formed. What can be ill-formed is a configuration (R87, D29) and an operation word
(R75, R77). The word's check is `decode`'s, in Decode.lean. -/

namespace Sys2Proof

/-- Every operand value has a meaning: R54, R89 and R170 leave no operand value out. -/
def Instr.wf : Instr → Bool
  | .txByte _ | .start | .stop | .sendCmd _ _ | .sendData _ _ | .beginWrite _ | .clear | .setBlank _ | .testAll
  | .setInt _ _ | .setHours _ _ _ | .setMinutes _ _ | .close | .decode _ _ | .setCoding _ | .setPower _
  | .setBright _ => true

/-- The two pins are different pins (R7, D29). -/
def Config.pinsDistinct (c : Config) : Bool := c.clkPin != c.dioPin

/-- `CMD_DISP_ON[2:0]` and `CMD_DISP_OFF[2:0]` are 0 (R87). -/
def Config.dispBasesClear (c : Config) : Bool :=
  (c.cmdDispOn &&& 0x07#8) == 0#8 && (c.cmdDispOff &&& 0x07#8) == 0#8

/-- A configuration the block can be built with (R87, D29, I1, I22). -/
def Config.wf (c : Config) : Bool := c.pinsDistinct && c.dispBasesClear

end Sys2Proof
end

