-- ==== Sys2Proof/Decode.lean ====
section
/-! DEFINITION. The operation word (`30_encoding.md` R71 to R75, R77): its fields, the opcode map, the decoder and the encoder.
`maskTable` is R74's own table of patterns; `rows` is R73's map. They are two independent transcriptions. -/

namespace Sys2Proof

/-- The fields of an operation word (R71). -/
structure Fields where
  opc : Byte
  rsv : Byte
  a   : Byte
  fr  : BitVec 6
  f1  : Bool
  f0  : Bool
  v   : Value
  deriving DecidableEq, Repr

/-- Reading the fields out of a word (R71). -/
def Fields.ofWord (w : OpWord) : Fields where
  opc := w.extractLsb' 56 8
  rsv := w.extractLsb' 48 8
  a   := w.extractLsb' 40 8
  fr  := w.extractLsb' 34 6
  f1  := w.getLsbD 33
  f0  := w.getLsbD 32
  v   := w.extractLsb' 0 32

/-- Putting the fields into a word, the most significant first (R71). -/
def Fields.toWord (f : Fields) : OpWord :=
  f.opc ++ f.rsv ++ f.a ++ f.fr ++ BitVec.ofBool f.f1 ++ BitVec.ofBool f.f0 ++ f.v

/-- COD's encoding (R25, D18). -/
def Coding.ofBit : Bool → Coding
  | false => .packedDecimal
  | true  => .rawByte

/-- COD's encoding (R25, D18). -/
def Coding.toBit : Coding → Bool
  | .packedDecimal => false
  | .rawByte => true

/-- A row of the opcode map (R73): the code, which operand fields the operation uses (a field it does not use must be 0),
and the operation those fields make. -/
structure Row where
  opc    : Byte
  usesA  : Bool
  usesF1 : Bool
  usesF0 : Bool
  usesV  : Bool
  build  : Fields → Instr

/-- R73, row for row. -/
def rows : List Row :=
  [⟨0x01, true,  false, false, false, fun f => .txByte f.a⟩,
   ⟨0x02, false, false, false, false, fun _ => .start⟩,
   ⟨0x03, false, false, false, false, fun _ => .stop⟩,
   ⟨0x04, true,  false, true,  false, fun f => .sendCmd f.a f.f0⟩,
   ⟨0x05, true,  false, true,  false, fun f => .sendData f.a f.f0⟩,
   ⟨0x06, true,  false, false, false, fun f => .beginWrite f.a⟩,
   ⟨0x10, false, false, false, false, fun _ => .clear⟩,
   ⟨0x11, true,  false, false, false, fun f => .setBlank f.a⟩,
   ⟨0x12, false, false, false, false, fun _ => .testAll⟩] ++
  [⟨0x13, false, false, true,  true,  fun f => .setInt f.v f.f0⟩,
   ⟨0x14, false, true,  true,  true,  fun f => .setHours f.v f.f0 f.f1⟩,
   ⟨0x15, false, true,  false, true,  fun f => .setMinutes f.v f.f1⟩,
   ⟨0x16, false, false, false, false, fun _ => .close⟩,
   ⟨0x20, true,  false, false, true,  fun f => .decode f.v f.a⟩,
   ⟨0x21, false, false, true,  false, fun f => .setCoding (Coding.ofBit f.f0)⟩,
   ⟨0x30, false, false, true,  false, fun f => .setPower f.f0⟩,
   ⟨0x31, true,  false, false, false, fun f => .setBright f.a⟩]

/-- Every bit the operation does not use is 0 (R75): RSV, FR and each unused operand field. -/
def Row.reservedClear (r : Row) (f : Fields) : Bool :=
  f.rsv == 0#8 && f.fr == 0#6 && (r.usesA || f.a == 0#8) && (r.usesF1 || !f.f1) && (r.usesF0 || !f.f0) &&
    (r.usesV || f.v == 0#32)

/-- Why a word names no operation (R211): REASON 1 or REASON 2. -/
inductive DecodeError where
  /-- OPC is not in R73's table (R77). -/
  | unassigned
  /-- A 1 in a bit the operation's mask requires to be 0 (R75). -/
  | reserved
  deriving DecidableEq, Repr

/-- An unassigned OPC is reported before a reserved bit (R213). -/
def decodeFields (f : Fields) : Except DecodeError Instr :=
  match rows.find? (fun r => r.opc == f.opc) with
  | none => .error .unassigned
  | some r => if r.reservedClear f then .ok (r.build f) else .error .reserved

/-- The decoder: total on all 2^64 words. -/
def decode (w : OpWord) : Except DecodeError Instr := decodeFields (Fields.ofWord w)

/-- The fields of an operation (R71 to R73). -/
def Instr.fields : Instr → Fields
  | .txByte b         => ⟨0x01, 0, b, 0, false, false, 0⟩
  | .start            => ⟨0x02, 0, 0, 0, false, false, 0⟩
  | .stop             => ⟨0x03, 0, 0, 0, false, false, 0⟩
  | .sendCmd c st     => ⟨0x04, 0, c, 0, false, st, 0⟩
  | .sendData b st    => ⟨0x05, 0, b, 0, false, st, 0⟩
  | .beginWrite p     => ⟨0x06, 0, p, 0, false, false, 0⟩
  | .clear            => ⟨0x10, 0, 0, 0, false, false, 0⟩
  | .setBlank p       => ⟨0x11, 0, p, 0, false, false, 0⟩
  | .testAll          => ⟨0x12, 0, 0, 0, false, false, 0⟩
  | .setInt n c       => ⟨0x13, 0, 0, 0, false, c, n⟩
  | .setHours v c z   => ⟨0x14, 0, 0, 0, z, c, v⟩
  | .setMinutes v z   => ⟨0x15, 0, 0, 0, z, false, v⟩
  | .close            => ⟨0x16, 0, 0, 0, false, false, 0⟩
  | .decode v i       => ⟨0x20, 0, i, 0, false, false, v⟩
  | .setCoding m      => ⟨0x21, 0, 0, 0, false, m.toBit, 0⟩
  | .setPower on      => ⟨0x30, 0, 0, 0, false, on, 0⟩
  | .setBright l      => ⟨0x31, 0, l, 0, false, false, 0⟩

/-- The encoder (R71 to R74). -/
def encode (i : Instr) : OpWord := i.fields.toWord

/-- R74's table: mnemonic, match, mask. -/
def maskTable : List (String × OpWord × OpWord) :=
  [("TX_BYTE",     0x0100000000000000, 0xFFFF00FFFFFFFFFF),
   ("START",       0x0200000000000000, 0xFFFFFFFFFFFFFFFF),
   ("STOP",        0x0300000000000000, 0xFFFFFFFFFFFFFFFF),
   ("SEND_CMD",    0x0400000000000000, 0xFFFF00FEFFFFFFFF),
   ("SEND_DATA",   0x0500000000000000, 0xFFFF00FEFFFFFFFF),
   ("BEGIN_WRITE", 0x0600000000000000, 0xFFFF00FFFFFFFFFF),
   ("CLEAR",       0x1000000000000000, 0xFFFFFFFFFFFFFFFF),
   ("SET_BLANK",   0x1100000000000000, 0xFFFF00FFFFFFFFFF),
   ("TEST_ALL",    0x1200000000000000, 0xFFFFFFFFFFFFFFFF)] ++
  [("SET_INT",     0x1300000000000000, 0xFFFFFFFE00000000),
   ("SET_HOURS",   0x1400000000000000, 0xFFFFFFFC00000000),
   ("SET_MINUTES", 0x1500000000000000, 0xFFFFFFFD00000000),
   ("CLOSE",       0x1600000000000000, 0xFFFFFFFFFFFFFFFF),
   ("DECODE",      0x2000000000000000, 0xFFFF00FF00000000),
   ("SET_CODING",  0x2100000000000000, 0xFFFFFFFEFFFFFFFF),
   ("SET_POWER",   0x3000000000000000, 0xFFFFFFFEFFFFFFFF),
   ("SET_BRIGHT",  0x3100000000000000, 0xFFFF00FFFFFFFFFF)]

/-- The mnemonic of an operation (R73). -/
def Instr.mnemonic : Instr → String
  | .txByte _ => "TX_BYTE"
  | .start => "START"
  | .stop => "STOP"
  | .sendCmd _ _ => "SEND_CMD"
  | .sendData _ _ => "SEND_DATA"
  | .beginWrite _ => "BEGIN_WRITE"
  | .clear => "CLEAR"
  | .setBlank _ => "SET_BLANK"
  | .testAll => "TEST_ALL"
  | .setInt _ _ => "SET_INT"
  | .setHours _ _ _ => "SET_HOURS"
  | .setMinutes _ _ => "SET_MINUTES"
  | .close => "CLOSE"
  | .decode _ _ => "DECODE"
  | .setCoding _ => "SET_CODING"
  | .setPower _ => "SET_POWER"
  | .setBright _ => "SET_BRIGHT"

/-- The operation the decoder reads from a table word: one 64-bit word, bit 0 its least significant bit, the bits above
`nbits` zero. -/
def decodeTableWord (nbits w : Nat) : Option Instr :=
  match decode (BitVec.ofNat 64 (w % 2 ^ nbits)) with
  | .ok i => some i
  | .error _ => none

end Sys2Proof
end

