-- ==== Sys2Proof/Machine/State.lean ====
section
/-! DEFINITION. The state of the block (`10_state.md`), the outcomes a step can stop with, and the state after reset (R35). -/

namespace Sys2Proof.Machine

open Sys2Proof

/-- FRAME (R29): `idle` is IDLE, `opened` is OPEN. -/
inductive Frame where
  | idle
  | opened
  deriving DecidableEq, Repr

/-- LIFE (R31): `opened` is OPEN, `closed` is CLOSED. -/
inductive Life where
  | opened
  | closed
  deriving DecidableEq, Repr

/-- What the host can do to the block: present an operation word (R70), or reset it with a configuration (R231). -/
inductive HostInput where
  | op (w : OpWord)
  | reset (c : Config)
  deriving DecidableEq, Repr

/-- Everything the spec gives the block, and the model's four fields for what lies outside it.
No operation names a register by number (R20), so each register is a field of its own. -/
structure State where
  /-- The configuration bound at the last reset (R32, R231). No operation changes it. -/
  cfg : Config
  /-- PWR (R23): the recorded display power state. -/
  pwr : Bool
  /-- BRT (R24): the recorded brightness step. -/
  brt : BitVec 3
  /-- COD (R25): the digit-coding mode. -/
  cod : Coding
  /-- CLK_LVL (R28): the level last set on CLK. -/
  clkLvl : Level
  /-- CLK_DIR (R28). -/
  clkDir : Direction
  /-- DIO_LVL (R28): the level last set on DIO, which is not the wire level while DIO is an input (R105). -/
  dioLvl : Level
  /-- DIO_DIR (R28). -/
  dioDir : Direction
  /-- FRAME (R29). No operation reads it. -/
  frame : Frame
  /-- LIFE (R31). -/
  life : Life
  /-- The pin trace (R30), oldest event first. -/
  trace : List PinEvent
  /-- False before the first reset, when every register and latch is unwritten (R35, D39; log entry 7). -/
  built : Bool
  /-- The model's own: what the host will present, oldest first (log entry 1). -/
  inputs : List HostInput
  /-- The model's own: the result words returned so far, oldest first (R70; log entry 8). -/
  results : List ResultWord
  /-- The model's own: the levels scheduled for the next samples of DIO, oldest first (R104; log entry 2). -/
  draws : List Level
  /-- The model's own: how many samples have been taken (log entry 2). -/
  drawn : Nat
  deriving DecidableEq, Repr

/-- The block raises no exception, fault or trap (R210, R218), so there is no fault to name. -/
inductive Fault where
  deriving DecidableEq, Repr

/-- The refusals (R211). A refused operation changes nothing, so the outcome carries no state. -/
inductive Refusal where
  /-- Raised by `exec` for an operation that has no meaning yet. Safe. No arm raises it. -/
  | notModelled (mnemonic : String)
  /-- RefUnassigned, REASON 1 (R77): raised by the port for a word whose OPC is unassigned. Safe. -/
  | unassigned
  /-- RefReserved, REASON 2 (R75): raised by the port for a word with a 1 in a bit that must be 0. Safe. -/
  | reserved
  /-- RefClosed, REASON 3 (R212): raised by every operation while LIFE = CLOSED. Safe. -/
  | closed
  /-- Raised by every operation before the first reset (R35, D39). Safe. -/
  | beforeReset
  /-- Raised by a reset whose configuration breaks R87 or D29 (I1, I22). Safe. -/
  | badConfiguration
  deriving DecidableEq, Repr

/-- The state after reset with the default configuration (R35, R230; log entries 3, 4 and 11). -/
def State.reset : State where
  cfg := Config.default
  pwr := false
  brt := 0
  cod := .packedDecimal
  clkLvl := .high
  clkDir := .output
  dioLvl := .high
  dioDir := .output
  frame := .idle
  life := .opened
  trace := [.lvl .clk .high, .lvl .dio .high, .dir .clk .output, .dir .dio .output]
  built := true
  inputs := []
  results := []
  draws := []
  drawn := 0

end Sys2Proof.Machine
end

