-- ==== Sys2Proof/Machine/Flags.lean ====
section
/-! DEFINITION. The block has no flags register (`10_state.md` R33): its status is the result word of `30_encoding.md` R76. -/

namespace Sys2Proof.Machine

open Sys2Proof

/-- A result word (R76): REFUSED [15], zeros [14:11], REASON [10:9], ACK [8], BYTE [7:0]. -/
def resultWord (refused : Bool) (reason : BitVec 2) (ack : Bool) (byte : Byte) : ResultWord :=
  BitVec.ofBool refused ++ 0#4 ++ reason ++ BitVec.ofBool ack ++ byte

/-- The result of a void operation (R76). -/
def resultVoid : ResultWord := resultWord false 0 false 0

/-- The result of TX_BYTE, SEND_CMD, SEND_DATA and BEGIN_WRITE (R76). -/
def resultAck (ack : Bool) : ResultWord := resultWord false 0 ack 0

/-- The result of DECODE (R76). -/
def resultByte (b : Byte) : ResultWord := resultWord false 0 false b

/-- The acknowledgement Boolean of a sampled level (R102): low is true. -/
def ackOf (l : Level) : Bool := l == .low

/-- REASON (R211). The model's other refusals are none of the block's and have no code. -/
def Refusal.reason : Refusal → Option (BitVec 2)
  | .unassigned => some 1
  | .reserved => some 2
  | .closed => some 3
  | _ => none

/-- The result word a refusal returns on the port (R211). -/
def Refusal.result (r : Refusal) : Option ResultWord :=
  r.reason.map fun c => resultWord true c false 0

end Sys2Proof.Machine
end

