-- ==== Sys2Proof/Machine/Operands.lean ====
section
/-! DEFINITION. Operand forms and constants: saturated positions and their addresses (`20_memory.md` R53, R54), segment bytes (R55),
the digit ROM (`10_state.md` R26, R27), the digit decoder (`43_digit_decode.md` R170 to R173), display-control bytes
(`30_encoding.md` R86) and the integer operand (`42_sequences.md` R145, D38). -/

namespace Sys2Proof.Machine

open Sys2Proof

/-- `COLON` (R55). -/
def colonBit : Byte := 0x80
/-- `MINUS` (R55). -/
def minusByte : Byte := 0x40
/-- `BLANK` (R55). -/
def blankByte : Byte := 0x00
/-- `ALL` (R55, D32). -/
def allByte : Byte := 0xFF

/-- `sat(p)` (R54, D7). -/
def sat (p : Byte) : Byte :=
  if p < 1#8 then 1#8 else if p > 6#8 then 6#8 else p

/-- `ADDR(p)` for a saturated position (R53): the sum wraps at 256. -/
def addr (c : Config) (p : Byte) : Byte := c.cmdAddrBase + (p - 1#8)

/-- The digit ROM's contents (R27). -/
def romBytes : List Byte := [0x3F, 0x06, 0x5B, 0x4F, 0x66, 0x6D, 0x7D, 0x07, 0x7F, 0x6F]

/-- `ROM[i]` (R26). No operation forms an index above 9 (R51); the model reads blank there. -/
def rom (i : Nat) : Byte := romBytes.getD i blankByte

/-- `clampIdx(i)` (R170). -/
def clampIdx (i : Byte) : Nat := if i.toNat > 3 then 3 else i.toNat

/-- `DecP(v, i)` (R171): packed-decimal decode. -/
def decP (v : Value) (i : Byte) : Byte :=
  let d := clampIdx i
  if v = 0#32 then rom 0
  else if v.toNat < 10 ^ d then blankByte
  else rom (v.toNat / 10 ^ d % 10)

/-- `DecR(v, i)` (R172): raw-byte decode. -/
def decR (v : Value) (i : Byte) : Byte := (v >>> (8 * clampIdx i)).setWidth 8

/-- `Dec(cod, v, i)` (R173). -/
def dec : Coding → Value → Byte → Byte
  | .packedDecimal => decP
  | .rawByte => decR

/-- The display-control base code of a power state (R86). -/
def dispBase (c : Config) (on : Bool) : Byte := if on then c.cmdDispOn else c.cmdDispOff

/-- `DISP(on, s)` (R86). -/
def disp (c : Config) (on : Bool) (s : BitVec 3) : Byte := dispBase c on ||| s.setWidth 8

/-- `l div 32` (R191): a step of 3 bits. -/
def brightStep (l : Byte) : BitVec 3 := (l / 32#8).setWidth 3

/-- `n < 0` for the SET_INT operand read as two's complement (R145, D38). -/
def isNeg (n : Value) : Bool := decide (n.toInt < 0)

/-- The unsigned magnitude of the SET_INT operand (R145, D14): -2^31 gives 2^31. -/
def magnitude (n : Value) : Value := if isNeg n then 0#32 - n else n

/-- The tens byte of a clock field (R147, R148): a blank tens digit becomes zero when `zero` is set. -/
def tensByte (v : Value) (zero : Bool) : Byte :=
  if decP v 1#8 = blankByte ∧ zero = true then rom 0 else decP v 1#8

/-- The ones byte of the hours field (R147). -/
def onesByte (v : Value) (colon : Bool) : Byte :=
  if colon then decP v 0#8 ||| colonBit else decP v 0#8

/-- The byte SET_INT writes for the digit `w` is at, at position `pos` (R145, D17). -/
def intDigit (cod : Coding) (pos : Nat) (w : Value) (colon : Bool) : Byte :=
  if pos = 2 ∧ colon = true then dec cod w 0#8 ||| colonBit else dec cod w 0#8

/-- The digit loop of R145 from position `pos` down: each turn gives one write (position, byte), divides the working value
by 10, and stops when it reaches 0 or position 1 has been written (`sent = 4`). -/
def intDigits (cod : Coding) (colon : Bool) : (pos : Nat) → Value → List (Nat × Byte)
  | 0, _ => []
  | pos + 1, w =>
    (pos + 1, intDigit cod (pos + 1) w colon) ::
      (if w / 10#32 = 0#32 then [] else intDigits cod colon pos (w / 10#32))

/-- The writes of SET_INT, in order (R145). The bytes depend on the operand and COD alone, so they are listed first and
emitted after (log entry 17). -/
def intWrites (cod : Coding) (n : Value) (colon : Bool) : List (Nat × Byte) :=
  if magnitude n = 0#32 then [(4, rom 0)]
  else
    let ds := intDigits cod colon nposLogical (magnitude n)
    if isNeg n = true ∧ ds.length < 3 then ds ++ [(4 - ds.length, minusByte)] else ds

end Sys2Proof.Machine
end

