-- ==== Sys2Proof/Machine/Ops.lean ====
section
/-! DEFINITION. The shared operations over the state, from the pin primitives (`00_scope.md` R10) up to the framer's shorthands (R12),
each written as its rule's pseudocode. The block takes no exception (`60_exceptions.md` R210, R218): the one non-normal
outcome is a refusal (R211), and `whenOpen` is where every operation is refused. -/

namespace Sys2Proof.Machine

open Sys2Proof

/-! ### Fields -/

/-- Appends one event to the pin trace (R30). -/
def State.emit (s : State) (e : PinEvent) : State := { s with trace := s.trace ++ [e] }

/-- FRAME <- f (R29). -/
def State.setFrame (s : State) (f : Frame) : State := { s with frame := f }

/-- PWR <- on (R23). -/
def State.setPwr (s : State) (on : Bool) : State := { s with pwr := on }

/-- BRT <- step (R24). -/
def State.setBrt (s : State) (step : BitVec 3) : State := { s with brt := step }

/-- COD <- m (R25). -/
def State.setCod (s : State) (m : Coding) : State := { s with cod := m }

/-- LIFE <- l (R31). -/
def State.setLife (s : State) (l : Life) : State := { s with life := l }

/-- Returns a result word on the port (R70, R76). -/
def State.respond (s : State) (w : ResultWord) : State := { s with results := s.results ++ [w] }

/-! ### Samples of DIO -/

/-- The level the k-th coming sample of DIO returns (R104): the one the environment has scheduled, else a free value. -/
def State.levelAt (s : State) (k : Nat) : Level := s.draws.getD k (Config.ackOracle (s.drawn + k))

/-- One sample has been taken. -/
def State.dropDraw (s : State) : State := { s with draws := s.draws.tail, drawn := s.drawn + 1 }

/-! ### Pin primitives (R10, R28) -/

/-- `SetLevel(p, l)`: one event, and the level latch of p. -/
def setLevel (p : Pin) (l : Level) (s : State) : State :=
  match p with
  | .clk => { s.emit (.lvl .clk l) with clkLvl := l }
  | .dio => { s.emit (.lvl .dio l) with dioLvl := l }

/-- `SetDir(p, d)`: one event, and the direction latch of p. -/
def setDir (p : Pin) (d : Direction) (s : State) : State :=
  match p with
  | .clk => { s.emit (.dir .clk d) with clkDir := d }
  | .dio => { s.emit (.dir .dio d) with dioDir := d }

/-- `l <- ReadLevel(p)`: one event holding the level drawn, and no latch (R28, R30, D37). -/
def readLevel (p : Pin) (s : State) : State × Level :=
  ((s.emit (.rd p (s.levelAt 0))).dropDraw, s.levelAt 0)

/-! ### The transmitter (`40_transmitter.md`) -/

/-- The level that sends a bit (R82): 1 is high. -/
def bitLevel (v : Bool) : Level := if v then .high else .low

/-- A bit slot (R82, R100). -/
def txBit (v : Bool) (s : State) : State :=
  s |> setLevel .clk .low |> setLevel .dio (bitLevel v) |> setLevel .clk .high

/-- The eight bit slots of a byte, least significant first (R56, R100). -/
def txBits (b : Byte) (s : State) : State :=
  [0, 1, 2, 3, 4, 5, 6, 7].foldl (fun s i => txBit (b.getLsbD i) s) s

/-- The acknowledgement slot (R83, R100, D5). -/
def txAck (s : State) : State × Bool :=
  let r := s |> setDir .dio .input |> setLevel .clk .low |> setLevel .clk .high |> readLevel .dio
  (r.1 |> setDir .dio .output |> setLevel .dio .high |> setLevel .clk .low, ackOf r.2)

/-- `Tx(b) -> ack` (R100). -/
def tx (b : Byte) (s : State) : State × Bool := txAck (txBits b s)

/-! ### The framer (`41_framer.md`) -/

/-- `Start()` (R120, D4). -/
def startCond (s : State) : State :=
  (s |> setLevel .clk .high |> setLevel .dio .low).setFrame .opened

/-- `Stop()` (R121). -/
def stopCond (s : State) : State :=
  (s |> setLevel .dio .low |> setLevel .clk .high |> setLevel .dio .high).setFrame .idle

/-- `if stop: Stop()` (R122, R123). -/
def stopIf (stop : Bool) (s : State) : State := if stop then stopCond s else s

/-- `Data(b, stop) -> ack` (R123). -/
def data (b : Byte) (stop : Bool) (s : State) : State × Bool :=
  let r := tx b s
  (stopIf stop r.1, r.2)

/-- `Cmd(b, stop) -> ack` (R122). -/
def cmd (b : Byte) (stop : Bool) (s : State) : State × Bool :=
  let r := tx b (startCond s)
  (stopIf stop r.1, r.2)

/-- `Begin(p) -> ack` (R124): the mode command's acknowledgement is discarded (D36). -/
def beginAt (p : Byte) (s : State) : State × Bool :=
  cmd (addr s.cfg (sat p)) false (cmd s.cfg.cmdDataAuto false s).1

/-! ### The sequences (`42_sequences.md`, `44_power_brightness.md`) -/

/-- Bytes streamed in the current frame, a STOP after the last (R130). -/
def stream : List Byte → State → State
  | [], s => s
  | [b], s => (data b true s).1
  | b :: bs, s => stream bs (data b false s).1

/-- `Write1(p, b)` (R140). -/
def write1 (p b : Byte) (s : State) : State := (data b true (beginAt p s).1).1

/-- `Fill6(b)` (R141). -/
def fill6 (b : Byte) (s : State) : State :=
  stream (List.replicate nposPhys b) (beginAt 1#8 s).1

/-- `PowerSeq(on)` (R190): PWR is written before the first event. -/
def powerSeq (on : Bool) (s : State) : State :=
  let s := s.setPwr on
  let s := (cmd s.cfg.cmdDataAuto true s).1
  (cmd (disp s.cfg on 0#3) true s).1

/-- `BrightSeq(l)` (R191, R232): BRT is written before the first event, PWR is read as recorded. -/
def brightSeq (l : Byte) (s : State) : State :=
  let s := s.setBrt (brightStep l)
  let s := (cmd s.cfg.cmdDataAuto true s).1
  (cmd (disp s.cfg s.pwr (brightStep l)) true s).1

/-- The writes of SET_INT, one frame each (R145, D12). -/
def writeAll (ws : List (Nat × Byte)) (s : State) : State :=
  ws.foldl (fun s w => write1 (BitVec.ofNat 8 w.1) w.2 s) s

/-! ### Completion and refusal -/

/-- An operation's effect where the block accepts it. Before the first reset every operation is refused (R35, D39), and while
LIFE = CLOSED every operation is refused (R212). -/
def whenOpen (s : State) (effect : State → State) : Host.Outcome State Fault Refusal :=
  if s.built then
    match s.life with
    | .opened => .next (effect s)
    | .closed => .refused .closed
  else .refused .beforeReset

/-- A void operation (R76): its effect, then a result word of zeros. -/
def finish (s : State) (effect : State → State) : Host.Outcome State Fault Refusal :=
  whenOpen s fun s => (effect s).respond resultVoid

/-- An operation that reports an acknowledgement (R76, R214). -/
def finishAck (s : State) (effect : State → State × Bool) : Host.Outcome State Fault Refusal :=
  whenOpen s fun s => (effect s).1.respond (resultAck (effect s).2)

end Sys2Proof.Machine
end

