-- ==== Sys2Proof/Machine/Control.lean ====
section
/-! DEFINITION. The meanings of SET_POWER and SET_BRIGHT (`44_power_brightness.md` R190, R191). -/

namespace Sys2Proof.Machine

open Sys2Proof

/-- SET_POWER (R190). -/
def execSetPower (on : Bool) (s : State) : Host.Outcome State Fault Refusal := finish s (powerSeq on)

/-- SET_BRIGHT (R191). PWR is read and changes nothing else (R192). -/
def execSetBright (l : Byte) (s : State) : Host.Outcome State Fault Refusal := finish s (brightSeq l)

end Sys2Proof.Machine
end

