-- ==== Sys2Proof/Machine/Digits.lean ====
section
/-! DEFINITION. The meanings of DECODE and SET_CODING (`43_digit_decode.md` R175, R176). -/

namespace Sys2Proof.Machine

open Sys2Proof

/-- DECODE (R175): the segment byte in the result, no event, no register. -/
def execDecode (v : Value) (i : Byte) (s : State) : Host.Outcome State Fault Refusal :=
  whenOpen s fun s => s.respond (resultByte (dec s.cod v i))

/-- SET_CODING (R176, D40). -/
def execSetCoding (m : Coding) (s : State) : Host.Outcome State Fault Refusal := finish s fun s => s.setCod m

end Sys2Proof.Machine
end

