-- ==== Sys2Proof/Machine/Framer.lean ====
section
/-! DEFINITION. The meanings of the framer's operations (`41_framer.md` R125 to R129). -/

namespace Sys2Proof.Machine

open Sys2Proof

/-- START (R125). FRAME is not checked (R29). -/
def execStart (s : State) : Host.Outcome State Fault Refusal := finish s startCond

/-- STOP (R126). -/
def execStop (s : State) : Host.Outcome State Fault Refusal := finish s stopCond

/-- SEND_CMD (R127). -/
def execSendCmd (code : Byte) (stop : Bool) (s : State) : Host.Outcome State Fault Refusal := finishAck s (cmd code stop)

/-- SEND_DATA (R128). -/
def execSendData (b : Byte) (stop : Bool) (s : State) : Host.Outcome State Fault Refusal := finishAck s (data b stop)

/-- BEGIN_WRITE (R129). -/
def execBeginWrite (p : Byte) (s : State) : Host.Outcome State Fault Refusal := finishAck s (beginAt p)

end Sys2Proof.Machine
end

