-- ==== Sys2Proof/Machine/Sequences.lean ====
section
/-! DEFINITION. The meanings of the write sequences and of teardown (`42_sequences.md`). -/

namespace Sys2Proof.Machine

open Sys2Proof

/-- CLEAR (R142). -/
def execClear (s : State) : Host.Outcome State Fault Refusal := finish s (fill6 blankByte)

/-- SET_BLANK (R143). -/
def execSetBlank (p : Byte) (s : State) : Host.Outcome State Fault Refusal := finish s (write1 p blankByte)

/-- TEST_ALL (R144). -/
def execTestAll (s : State) : Host.Outcome State Fault Refusal := finish s (fill6 allByte)

/-- SET_INT (R145, R146). COD is read and not written. -/
def execSetInt (n : Value) (colon : Bool) (s : State) : Host.Outcome State Fault Refusal :=
  finish s fun s => writeAll (intWrites s.cod n colon) s

/-- SET_HOURS (R147). COD is not read (D16). -/
def execSetHours (v : Value) (colon zero : Bool) (s : State) : Host.Outcome State Fault Refusal :=
  finish s fun s => stream [tensByte v zero, onesByte v colon] (beginAt 1#8 s).1

/-- SET_MINUTES (R148). -/
def execSetMinutes (v : Value) (zero : Bool) (s : State) : Host.Outcome State Fault Refusal :=
  finish s fun s => stream [tensByte v zero, decP v 0#8] (beginAt 3#8 s).1

/-- CLOSE (R149, D35). -/
def execClose (s : State) : Host.Outcome State Fault Refusal :=
  finish s fun s => (powerSeq false (fill6 blankByte s)).setLife .closed

end Sys2Proof.Machine
end

