-- ==== Sys2Proof/Machine/Transmitter.lean ====
section
/-! DEFINITION. The meaning of TX_BYTE (`40_transmitter.md`). -/

namespace Sys2Proof.Machine

open Sys2Proof

/-- TX_BYTE (R101). -/
def execTxByte (b : Byte) (s : State) : Host.Outcome State Fault Refusal := finishAck s (tx b)

end Sys2Proof.Machine
end

