-- ==== Sys2Proof/Machine/Dispatch.lean ====
section
/-! DEFINITION. The dispatch: one meaning for each operation (`30_encoding.md` R73). -/

namespace Sys2Proof.Machine

open Sys2Proof

def exec (i : Instr) (s : State) : Host.Outcome State Fault Refusal :=
  match i with
  | .txByte b => Sys2Proof.Machine.execTxByte b s
  | .start => Sys2Proof.Machine.execStart s
  | .stop => Sys2Proof.Machine.execStop s
  | .sendCmd code stop => Sys2Proof.Machine.execSendCmd code stop s
  | .sendData b stop => Sys2Proof.Machine.execSendData b stop s
  | .beginWrite p => Sys2Proof.Machine.execBeginWrite p s
  | .clear => Sys2Proof.Machine.execClear s
  | .setBlank p => Sys2Proof.Machine.execSetBlank p s
  | .testAll => Sys2Proof.Machine.execTestAll s
  | .setInt n colon => Sys2Proof.Machine.execSetInt n colon s
  | .setHours v colon zero => Sys2Proof.Machine.execSetHours v colon zero s
  | .setMinutes v zero => Sys2Proof.Machine.execSetMinutes v zero s
  | .close => Sys2Proof.Machine.execClose s
  | .decode v i2 => Sys2Proof.Machine.execDecode v i2 s
  | .setCoding mode => Sys2Proof.Machine.execSetCoding mode s
  | .setPower on => Sys2Proof.Machine.execSetPower on s
  | .setBright level => Sys2Proof.Machine.execSetBright level s

end Sys2Proof.Machine
end

