-- ==== Sys2Proof/Machine/Reset.lean ====
section
/-! DEFINITION. Reset (`70_reset_and_hazards.md` R230 to R232) and the state before the first one (`10_state.md` R35, D39). -/

namespace Sys2Proof.Machine

open Sys2Proof

/-- `Reset()` (R230) up to its last line: it binds the configuration (R231), primes the pins, the levels before the directions, and
sets every register. The events are appended to the trace (R231). The host's inputs, the results and the samples lie
outside the block and stay. -/
def primed (c : Config) (s : State) : State :=
  let s := { s with cfg := c }
  let s := s |> setLevel .clk .high |> setLevel .dio .high |> setDir .clk .output |> setDir .dio .output
  let s := (s.setPwr c.resetPwr).setBrt (brightStep c.initBrightness)
  let s := ((s.setCod .packedDecimal).setFrame .idle).setLife .opened
  { s with built := true }

/-- `Reset()` (R230), which ends with `BrightSeq` if `INIT_EMITS_BRIGHTNESS` (R232). -/
def applyReset (c : Config) (s : State) : State :=
  if c.initEmitsBrightness then brightSeq c.initBrightness (primed c s) else primed c s

/-- A reset on the port: a configuration outside the constraints is refused (R87, D29, I1, I22). -/
def takeReset (c : Config) (s : State) : Host.Outcome State Fault Refusal :=
  if c.wf then .next (applyReset c s) else .refused .badConfiguration

/-- A block that has never been reset: nothing is on the trace, and every register and latch is unwritten (R35, D39).
The values that stand in those fields are read by nothing, since every operation is refused. -/
def State.unbuilt : State :=
  { State.reset with trace := [], built := false }

end Sys2Proof.Machine
end

