-- ==== Sys2Proof/Machine/Port.lean ====
section
/-! DEFINITION. The operation port (`30_encoding.md` R70, `60_exceptions.md` R211 to R215). -/

namespace Sys2Proof.Machine

open Sys2Proof

/-- The refusal of a word that names no operation (R75, R77, R211). -/
def refusalOf : DecodeError → Refusal
  | .unassigned => .unassigned
  | .reserved => .reserved

/-- One operation word presented to the block (R70). The lowest REASON is reported: the word is decoded before LIFE is
looked at (R213). Before the first reset any word is refused (R35, D39; log entry 13). -/
def present (w : OpWord) (s : State) : Host.Outcome State Fault Refusal :=
  if s.built then
    match decode w with
    | .ok i => exec i s
    | .error e => .refused (refusalOf e)
  else .refused .beforeReset

/-- One input of the host. -/
def takeInput (i : HostInput) (s : State) : Host.Outcome State Fault Refusal :=
  match i with
  | .op w => present w s
  | .reset c => takeReset c s

/-- The next input, where the host has one. With none the block waits for the first operation on its port (R230). -/
def stepPort (s : State) : Host.Outcome State Fault Refusal :=
  match s.inputs with
  | [] => .next s
  | i :: rest => takeInput i { s with inputs := rest }

/-- The port as the host sees it: a refused word changes nothing, returns its result word, and control stays with the host
(R211, R218). `step` gives a refusal as the refused outcome (R211); this is the same port with the host going on
after it. A refusal that has no result word (R35, R87) leaves no answer. -/
def serve (s : State) : State :=
  match s.inputs with
  | [] => s
  | i :: rest =>
    match takeInput i { s with inputs := rest } with
    | .next t => t
    | .refused r =>
      match r.result with
      | some w => ({ s with inputs := rest } : State).respond w
      | none => { s with inputs := rest }

/-- `n` inputs served. -/
def serveN : Nat → State → State
  | 0, s => s
  | n + 1, s => serveN n (serve s)

end Sys2Proof.Machine
end

