-- ==== Sys2Proof/Machine/Step.lean ====
section
/-! DEFINITION. One step of the block: one host input, run to completion (`60_exceptions.md` R215, `70_reset_and_hazards.md` R250). -/

namespace Sys2Proof.Machine

open Sys2Proof

/-- One step. -/
def step (s : State) : Host.Outcome State Fault Refusal := stepPort s

/-- `s` with an operation word as the next input of the host (R70). The word is one 64-bit word, the bits above
`nbits` zero. The block has no program counter to set (R21). -/
def State.withFetchWord (s : State) (nbits w : Nat) : State :=
  { s with inputs := .op (BitVec.ofNat 64 (w % 2 ^ nbits)) :: s.inputs }

end Sys2Proof.Machine
end

