-- ==== Sys2Proof/Machine/Assembler.lean ====
section
/-! DEFINITION. The assembler syntax of `30_encoding.md` R79 and the pseudo-instruction of R80, as functions from a line of characters to
operations. The block never sees a line: this is the host's side of the port. -/

namespace Sys2Proof.Machine

open Sys2Proof

/-- The flag keywords of R79. -/
inductive Keyword where
  | stop
  | opened
  | colon
  | zero
  | on
  | off
  | packed
  | raw
  deriving DecidableEq, Repr

/-- An operand of a line: a number, `neg` where a `-` leads it, or a keyword. -/
inductive AsmArg where
  | num (neg : Bool) (n : Nat)
  | key (k : Keyword)
  deriving DecidableEq, Repr

/-- Operands a byte holds (R79: 0..255). -/
def asByte : AsmArg → Option Byte
  | .num false n => if n < 2 ^ 8 then some (BitVec.ofNat 8 n) else none
  | _ => none

/-- Operands 0..4294967295 (R79). -/
def asU32 : AsmArg → Option Value
  | .num false n => if n < 2 ^ 32 then some (BitVec.ofNat 32 n) else none
  | _ => none

/-- Operands -2147483648..2147483647, the only ones a `-` may lead (R79). -/
def asS32 : AsmArg → Option Value
  | .num false n => if n < 2 ^ 31 then some (BitVec.ofNat 32 n) else none
  | .num true n => if n ≤ 2 ^ 31 then some (0#32 - BitVec.ofNat 32 n) else none
  | _ => none

/-- `stop` gives F0 = 1 and `open` gives F0 = 0 (R79). -/
def asStop : AsmArg → Option Bool
  | .key .stop => some true
  | .key .opened => some false
  | _ => none

/-- A line's operations: the operation of each form R79 lists, and the two of `WRITE1` (R80). -/
def assemble : String → List AsmArg → Option (List Instr)
  | "TX_BYTE", [b] => (asByte b).map fun b => [.txByte b]
  | "START", [] => some [.start]
  | "STOP", [] => some [.stop]
  | "SEND_CMD", [b] => (asByte b).map fun b => [.sendCmd b true]
  | "SEND_CMD", [b, f] => (asByte b).bind fun b => (asStop f).map fun f => [.sendCmd b f]
  | "SEND_DATA", [b, f] => (asByte b).bind fun b => (asStop f).map fun f => [.sendData b f]
  | "BEGIN_WRITE", [p] => (asByte p).map fun p => [.beginWrite p]
  | "SET_BLANK", [p] => (asByte p).map fun p => [.setBlank p]
  | "CLEAR", [] => some [.clear]
  | "TEST_ALL", [] => some [.testAll]
  | "CLOSE", [] => some [.close]
  | "SET_INT", [n] => (asS32 n).map fun n => [.setInt n false]
  | "SET_INT", [n, .key .colon] => (asS32 n).map fun n => [.setInt n true]
  | "SET_HOURS", [n] => (asU32 n).map fun n => [.setHours n false false]
  | "SET_HOURS", [n, .key .colon] => (asU32 n).map fun n => [.setHours n true false]
  | "SET_HOURS", [n, .key .zero] => (asU32 n).map fun n => [.setHours n false true]
  | "SET_HOURS", [n, .key .colon, .key .zero] => (asU32 n).map fun n => [.setHours n true true]
  | "SET_MINUTES", [n] => (asU32 n).map fun n => [.setMinutes n false]
  | "SET_MINUTES", [n, .key .zero] => (asU32 n).map fun n => [.setMinutes n true]
  | "DECODE", [n, i] => (asU32 n).bind fun n => (asByte i).map fun i => [.decode n i]
  | "SET_CODING", [.key .packed] => some [.setCoding .packedDecimal]
  | "SET_CODING", [.key .raw] => some [.setCoding .rawByte]
  | "SET_POWER", [.key .on] => some [.setPower true]
  | "SET_POWER", [.key .off] => some [.setPower false]
  | "SET_BRIGHT", [l] => (asByte l).map fun l => [.setBright l]
  | "WRITE1", [p, b] => (asByte p).bind fun p => (asByte b).map fun b => [.beginWrite p, .sendData b true]
  | _, _ => none

/-- The operands of an operation, as R79 writes them. -/
def asmArgs : Instr → List AsmArg
  | .txByte b => [.num false b.toNat]
  | .start | .stop | .clear | .testAll | .close => []
  | .sendCmd b st | .sendData b st => [.num false b.toNat, .key (if st then .stop else .opened)]
  | .beginWrite p | .setBlank p => [.num false p.toNat]
  | .setInt n c =>
    (if n.msb then .num true (2 ^ 32 - n.toNat) else .num false n.toNat) :: (if c then [.key .colon] else [])
  | .setHours v c z => .num false v.toNat :: (if c then [.key .colon] else []) ++ (if z then [.key .zero] else [])
  | .setMinutes v z => .num false v.toNat :: (if z then [.key .zero] else [])
  | .decode v i => [.num false v.toNat, .num false i.toNat]
  | .setCoding m => [.key (match m with | .packedDecimal => .packed | .rawByte => .raw)]
  | .setPower on => [.key (if on then .on else .off)]
  | .setBright l => [.num false l.toNat]

/-! ### Characters -/

/-- The value of a decimal or hexadecimal digit character. -/
def digitOf (base : Nat) (c : Char) : Option Nat :=
  let n := c.toNat
  let d := if 48 ≤ n ∧ n ≤ 57 then n - 48 else if 97 ≤ n ∧ n ≤ 102 then n - 87 else if 65 ≤ n ∧ n ≤ 70 then n - 55 else 16
  if d < base then some d else none

/-- A run of digits, most significant first. -/
def numberFrom (base : Nat) : Nat → List Char → Option Nat
  | acc, [] => some acc
  | acc, c :: cs => (digitOf base c).bind fun d => numberFrom base (acc * base + d) cs

/-- A number or a keyword (R79): decimal, with a leading `-` or not, or hexadecimal with `0x`. -/
def readArg (cs : List Char) : Option AsmArg :=
  match cs with
  | ['s', 't', 'o', 'p'] => some (.key .stop)
  | ['o', 'p', 'e', 'n'] => some (.key .opened)
  | ['c', 'o', 'l', 'o', 'n'] => some (.key .colon)
  | ['z', 'e', 'r', 'o'] => some (.key .zero)
  | ['o', 'n'] => some (.key .on)
  | ['o', 'f', 'f'] => some (.key .off)
  | ['p', 'a', 'c', 'k', 'e', 'd'] => some (.key .packed)
  | ['r', 'a', 'w'] => some (.key .raw)
  | '0' :: 'x' :: d :: ds => (numberFrom 16 0 (d :: ds)).map (.num false)
  | '-' :: d :: ds => (numberFrom 10 0 (d :: ds)).map (.num true)
  | d :: ds => (numberFrom 10 0 (d :: ds)).map (.num false)
  | [] => none

/-- Spaces at the two ends are dropped (log entry 15). -/
def trim (cs : List Char) : List Char := ((cs.dropWhile (· == ' ')).reverse.dropWhile (· == ' ')).reverse

/-- The parts between the occurrences of a separator. -/
def splitAt (sep : Char) : List Char → List (List Char)
  | [] => [[]]
  | c :: cs =>
    if c == sep then [] :: splitAt sep cs
    else
      match splitAt sep cs with
      | [] => [[c]]
      | p :: ps => (c :: p) :: ps

/-- The operations of one line: the mnemonic, a space, and the operands separated by commas (R79). -/
def assembleLine (line : List Char) : Option (List Instr) :=
  let line := trim line
  let name := line.takeWhile (· != ' ')
  let rest := trim (line.dropWhile (· != ' '))
  let args := if rest.isEmpty then some [] else (splitAt ',' rest).mapM fun a => readArg (trim a)
  args.bind fun args => assemble (String.ofList name) args

/-! ### Writing a line -/

/-- The character of a decimal or hexadecimal digit. -/
def digitChar (d : Nat) : Char := Char.ofNat (if d < 10 then 48 + d else 87 + d)

/-- The numeral of a number of at most `fuel` digits, with no leading zeros. -/
def numeral (base : Nat) : (fuel : Nat) → Nat → List Char
  | 0, _ => []
  | fuel + 1, n => if n < base then [digitChar n] else numeral base fuel (n / base) ++ [digitChar (n % base)]

/-- The spelling of a keyword (R79). -/
def Keyword.text : Keyword → List Char
  | .stop => ['s', 't', 'o', 'p']
  | .opened => ['o', 'p', 'e', 'n']
  | .colon => ['c', 'o', 'l', 'o', 'n']
  | .zero => ['z', 'e', 'r', 'o']
  | .on => ['o', 'n']
  | .off => ['o', 'f', 'f']
  | .packed => ['p', 'a', 'c', 'k', 'e', 'd']
  | .raw => ['r', 'a', 'w']

/-- An operand as R79 writes it: decimal, or hexadecimal with `0x` where `hex` asks for it and no `-` leads. An operand has at most ten
decimal digits. -/
def AsmArg.text (hex : Bool) : AsmArg → List Char
  | .key k => k.text
  | .num true n => '-' :: numeral 10 10 n
  | .num false n => if hex then '0' :: 'x' :: numeral 16 10 n else numeral 10 10 n

/-- Operands separated by commas, with a space after each comma where `gap` asks for it (log entry 15). -/
def argsText (hex gap : Bool) : List AsmArg → List Char
  | [] => []
  | [a] => a.text hex
  | a :: as => a.text hex ++ ',' :: (if gap then [' '] else []) ++ argsText hex gap as

/-- The mnemonic, and its operands where it has any (R79). -/
def lineText (hex gap : Bool) (name : String) (args : List AsmArg) : List Char :=
  name.toList ++ (if args.isEmpty then [] else ' ' :: argsText hex gap args)

end Sys2Proof.Machine
end

