-- ==== Sys2Proof/Machine/Wire.lean ====
section
/-! DEFINITION. The wire encoding of `30_encoding.md` section 4 (R81 to R83) and the frame notation of R90, written apart from the
operations of Ops.lean: what a frame IS on the trace, and a reader of the trace. Nothing here is part of a step. -/

namespace Sys2Proof.Machine

open Sys2Proof

/-- An item of the frame notation (R90, `95_test_vectors.md` section 0): `reset` is the pin priming of R230, `start` is S or S',
`stop` is P, and `byte b l` is `[b]` whose acknowledgement slot sampled `l`. -/
inductive Slot where
  | reset
  | start
  | stop
  | byte (b : Byte) (l : Level)
  deriving DecidableEq, Repr

/-- A bit slot (R82). -/
def bitSlot (v : Bool) : List PinEvent :=
  [.lvl .clk .low, .lvl .dio (bitLevel v), .lvl .clk .high]

/-- An acknowledgement slot (R83). -/
def ackSlot (l : Level) : List PinEvent :=
  [.dir .dio .input, .lvl .clk .low, .lvl .clk .high, .rd .dio l, .dir .dio .output, .lvl .dio .high, .lvl .clk .low]

/-- A byte slot: eight bit slots, bit 0 first (R56), and an acknowledgement slot (R81). -/
def byteSlot (b : Byte) (l : Level) : List PinEvent :=
  bitSlot (b.getLsbD 0) ++ bitSlot (b.getLsbD 1) ++ bitSlot (b.getLsbD 2) ++ bitSlot (b.getLsbD 3) ++
    bitSlot (b.getLsbD 4) ++ bitSlot (b.getLsbD 5) ++ bitSlot (b.getLsbD 6) ++ bitSlot (b.getLsbD 7) ++ ackSlot l

/-- The pin events of an item (R81, R120, R121, R230). -/
def Slot.events : Slot → List PinEvent
  | .reset => [.lvl .clk .high, .lvl .dio .high, .dir .clk .output, .dir .dio .output]
  | .start => [.lvl .clk .high, .lvl .dio .low]
  | .stop => [.lvl .dio .low, .lvl .clk .high, .lvl .dio .high]
  | .byte b l => byteSlot b l

/-- The pin events of a run of items. -/
def wireEvents (items : List Slot) : List PinEvent := items.flatMap Slot.events

/-- How many byte slots, so how many samples of DIO (R130). -/
def byteCount : List Slot → Nat
  | [] => 0
  | .byte _ _ :: r => byteCount r + 1
  | .reset :: r | .start :: r | .stop :: r => byteCount r

/-- FRAME after a run of items (R29, R230). -/
def frameAfter : Frame → List Slot → Frame
  | f, [] => f
  | _, .reset :: r => frameAfter .idle r
  | _, .start :: r => frameAfter .opened r
  | _, .stop :: r => frameAfter .idle r
  | f, .byte _ _ :: r => frameAfter f r

/-! ### The frames of the operations (R90) -/

/-- Byte slots for `bs`, the samples counted from the k-th coming one. -/
def bytesFrom (s : State) : Nat → List Byte → List Slot
  | _, [] => []
  | k, b :: bs => .byte b (s.levelAt k) :: bytesFrom s (k + 1) bs

/-- `S [CMD_DATA_AUTO] S' [ADDR(p)]`, the frame left open (R90). -/
def beginSlots (s : State) (k : Nat) (p : Byte) : List Slot :=
  [.start, .byte s.cfg.cmdDataAuto (s.levelAt k), .start, .byte (addr s.cfg (sat p)) (s.levelAt (k + 1))]

/-- `S [CMD_DATA_AUTO] S' [ADDR(p)] [b] ... P` (R90). -/
def writeSlots (s : State) (k : Nat) (p : Byte) (bs : List Byte) : List Slot :=
  beginSlots s k p ++ bytesFrom s (k + 2) bs ++ [.stop]

/-- `S [CMD_DATA_AUTO] P S [c] P` (R90). -/
def controlSlots (s : State) (k : Nat) (c : Byte) : List Slot :=
  [.start, .byte s.cfg.cmdDataAuto (s.levelAt k), .stop, .start, .byte c (s.levelAt (k + 1)), .stop]

/-- One write frame for each position and byte (R90). -/
def writesSlots (s : State) : Nat → List (Nat × Byte) → List Slot
  | _, [] => []
  | k, w :: ws => writeSlots s k (BitVec.ofNat 8 w.1) [w.2] ++ writesSlots s (k + 3) ws

/-- `s` after a run of items that ends with a byte slot: the latches of R100, the samples taken, the events appended. -/
def State.afterBytes (s : State) (items : List Slot) : State :=
  { s with
    trace := s.trace ++ wireEvents items
    draws := s.draws.drop (byteCount items)
    drawn := s.drawn + byteCount items
    clkLvl := .low
    dioLvl := .high
    dioDir := .output
    frame := frameAfter s.frame items }

/-- `s` after a run of items that holds a byte slot and ends with a STOP: the latches of R121. -/
def State.afterFrames (s : State) (items : List Slot) : State :=
  { s.afterBytes items with clkLvl := .high, frame := .idle }

/-! ### Reading the trace back -/

/-- One bit slot at the head of a trace. -/
def readBit : List PinEvent → Option (Bool × List PinEvent)
  | .lvl .clk .low :: .lvl .dio l :: .lvl .clk .high :: r => some (l == .high, r)
  | _ => none

/-- `n` bit slots, least significant bit first. -/
def readBits : Nat → List PinEvent → Option (List Bool × List PinEvent)
  | 0, es => some ([], es)
  | n + 1, es =>
    (readBit es).bind fun x => (readBits n x.2).map fun y => (x.1 :: y.1, y.2)

/-- The byte of eight bits, bit 0 first (R56). -/
def byteOfBits (bits : List Bool) : Byte := BitVec.ofNat 8 (bits.foldr (fun v n => v.toNat + 2 * n) 0)

/-- One item at the head of a trace. The first event tells a START or a reset (CLK high), a STOP (DIO) and a byte (CLK low)
apart, and the second a START from a reset. -/
def readSlot : List PinEvent → Option (Slot × List PinEvent)
  | .lvl .clk .high :: .lvl .dio .low :: r => some (.start, r)
  | .lvl .clk .high :: .lvl .dio .high :: .dir .clk .output :: .dir .dio .output :: r => some (.reset, r)
  | .lvl .dio .low :: .lvl .clk .high :: .lvl .dio .high :: r => some (.stop, r)
  | es =>
    (readBits 8 es).bind fun x =>
      match x.2 with
      | .dir .dio .input :: .lvl .clk .low :: .lvl .clk .high :: .rd .dio l :: .dir .dio .output :: .lvl .dio .high
          :: .lvl .clk .low :: r => some (.byte (byteOfBits x.1) l, r)
      | _ => none

/-- The items of a trace of at most `fuel` items, where it is nothing but whole items. -/
def readSlots : (fuel : Nat) → List PinEvent → Option (List Slot)
  | _, [] => some []
  | 0, _ :: _ => none
  | n + 1, e :: es => (readSlot (e :: es)).bind fun x => (readSlots n x.2).map fun y => x.1 :: y

/-- The items of a trace. No item is empty, so the trace's length is fuel enough. -/
def readTrace (es : List PinEvent) : Option (List Slot) := readSlots es.length es

/-! ### The informative reading of a stream (R11, R53) -/

/-- `MemWrite(POS, a + k, 1, b)` for the data bytes after an address command (R53): `off` is the offset the next byte lands at, where the
frame has had an address command. A reading of the frames, and no state (R34, D31). R53 gives the reading after `Begin(p)`; that any
frame headed by an address-class byte is read so, whichever data command came before it (G10), and that the offset goes on counting
past 5 (G9), is the model's choice (DESIGN CHOICE, log entry 21). So is the reading of bytes that break the framing discipline, which the spec
leaves to the chip (R243, I8): a byte with no START, or in a frame with no address-class head, is no write, and a byte in a frame that is
never closed is one. -/
def memWritesFrom (c : Config) : (first : Bool) → (off : Option Nat) → List Slot → List (Nat × Byte)
  | _, _, [] => []
  | _, _, .reset :: r => memWritesFrom c false none r
  | _, _, .start :: r => memWritesFrom c true none r
  | _, _, .stop :: r => memWritesFrom c false none r
  | true, _, .byte b _ :: r =>
    memWritesFrom c false (if (b - c.cmdAddrBase).toNat < nposPhys then some (b - c.cmdAddrBase).toNat else none) r
  | false, none, .byte _ _ :: r => memWritesFrom c false none r
  | false, some a, .byte b _ :: r => (a, b) :: memWritesFrom c false (some (a + 1)) r

/-- The writes a run of items makes to the display, read as R11 reads them. -/
def memWrites (c : Config) (items : List Slot) : List (Nat × Byte) := memWritesFrom c false none items

/-- The byte last written to each display offset (R11), offsets 0 to 5, where one was. There is no reading where a byte passed offset 5,
since the spec says neither that it wraps, nor that it stops, nor that it is ignored (G9). Where the bytes break the framing discipline (R243, I8) there still is one, the reading
`memWritesFrom` gives them (DESIGN CHOICE, log entry 21). -/
def displayReading (c : Config) (items : List Slot) : Option (List (Option Byte)) :=
  if (memWrites c items).all fun w => w.1 < nposPhys then
    some ([0, 1, 2, 3, 4, 5].map fun a => ((memWrites c items).reverse.find? fun w => w.1 == a).map (·.2))
  else none

/-! ### Edges the block drives (R120, R121, R242, R244) -/

/-- A START or STOP condition (R120, R121): DIO moves while CLK is high. -/
inductive Condition where
  | start
  | stop
  deriving DecidableEq, Repr

/-- The conditions a run of events makes, read off the latches (CLK_LVL, DIO_LVL) alone, as if the block drove DIO whenever it sets
its level (log entry 18). What the chip makes of an edge is not in the sources (R242). -/
def conditions : (clk dio : Level) → List PinEvent → List Condition
  | _, _, [] => []
  | _, d, .lvl .clk l :: r => conditions l d r
  | c, d, .lvl .dio l :: r =>
    (match c, d, l with
      | .high, .high, .low => [Condition.start]
      | .high, .low, .high => [Condition.stop]
      | _, _, _ => []) ++ conditions c l r
  | c, d, .dir _ _ :: r => conditions c d r
  | c, d, .rd _ _ :: r => conditions c d r

end Sys2Proof.Machine
end

