-- ==== Sys2Proof/Machine/Measure.lean ====
section
/-! DEFINITION. Closed forms the spec gives beside its pseudocode: the corner cases of SET_INT (`42_sequences.md` R146), the event counts of
`70_reset_and_hazards.md` R251, and what a run of items shows of its frames. Nothing here is part of a step. -/

namespace Sys2Proof.Machine

open Sys2Proof

/-- The number of decimal digits of the magnitude, capped at 4 (R146 (c)). -/
def digitsShown (n : Value) : Nat :=
  let m := n.toInt.natAbs
  if m < 10 then 1 else if m < 100 then 2 else if m < 1000 then 3 else 4

/-- The minus sign is written only for a negative value of 1 or 2 digits (R146 (d)). -/
def signShown (n : Value) : Bool := decide (n.toInt < 0) && decide (digitsShown n < 3)

/-- The number of frames of SET_INT (R146 (h)). -/
def intFrames (n : Value) : Nat :=
  if n = 0#32 then 1 else digitsShown n + (signShown n).toNat

/-- The writes of SET_INT in R146's words: a zero alone; else the j-th write is at position 4 - j, decodes the magnitude without
its last j decimal digits, and has the colon bit at position 2 alone; then the sign, left of the last digit. -/
def intShown (cod : Coding) (n : Value) (colon : Bool) : List (Nat × Byte) :=
  if n = 0#32 then [(4, 0x3F#8)]
  else
    ((List.range (digitsShown n)).map fun j =>
      (4 - j, dec cod (BitVec.ofNat 32 (n.toInt.natAbs / 10 ^ j)) 0#8 |||
        (if j = 2 ∧ colon = true then 0x80#8 else 0x00#8))) ++
    (if signShown n then [(4 - digitsShown n, 0x40#8)] else [])

/-- The pin events an operation appends (R251). -/
def eventCount : Instr → Nat
  | .txByte _ => 31
  | .start => 2
  | .stop => 3
  | .sendCmd _ st => if st then 36 else 33
  | .sendData _ st => if st then 34 else 31
  | .beginWrite _ => 66
  | .clear => 255
  | .setBlank _ => 100
  | .testAll => 255
  | .setInt n _ => 100 * intFrames n
  | .setHours _ _ _ => 131
  | .setMinutes _ _ => 131
  | .close => 327
  | .decode _ _ => 0
  | .setCoding _ => 0
  | .setPower _ => 72
  | .setBright _ => 72

/-- The pin events a reset appends (R251). -/
def resetEventCount (c : Config) : Nat := if c.initEmitsBrightness then 76 else 4

/-- An event without the level a read returned. -/
def eraseRead : PinEvent → PinEvent
  | .lvl p l => .lvl p l
  | .dir p d => .dir p d
  | .rd p _ => .rd p .high

/-- The four operations that report an acknowledgement (R33, R214). -/
def reportsAck : Instr → Bool
  | .txByte _ | .sendCmd _ _ | .sendData _ _ | .beginWrite _ => true
  | .start | .stop | .clear | .setBlank _ | .testAll | .setInt _ _ | .setHours _ _ _ | .setMinutes _ _ | .close
  | .decode _ _ | .setCoding _ | .setPower _ | .setBright _ => false

/-- The operations of `42_sequences.md` and `44_power_brightness.md`, which frame their own bytes (R243). -/
def composed : Instr → Bool
  | .clear | .setBlank _ | .testAll | .setInt _ _ | .setHours _ _ _ | .setMinutes _ _ | .close | .setPower _
  | .setBright _ => true
  | .txByte _ | .sendCmd _ _ | .sendData _ _ | .beginWrite _ | .start | .stop | .decode _ _ | .setCoding _ => false

/-- The bytes that stand first after a START (R89). -/
def frameHeads : (first : Bool) → List Slot → List Byte
  | _, [] => []
  | _, .start :: r => frameHeads true r
  | _, .stop :: r => frameHeads false r
  | _, .reset :: r => frameHeads false r
  | true, .byte b _ :: r => b :: frameHeads false r
  | false, .byte _ _ :: r => frameHeads false r

/-- A byte the block puts first in a frame by itself (R88). -/
def isBlockCommand (c : Config) (b : Byte) : Bool :=
  b == c.cmdDataAuto || [1#8, 2#8, 3#8, 4#8, 5#8, 6#8].any (fun p => b == addr c p) ||
    (List.range 8).any fun x => b == disp c true (BitVec.ofNat 3 x) || b == disp c false (BitVec.ofNat 3 x)

/-- Every byte and every STOP stands inside a frame (R243 (a), R244). -/
def framesWhole : Frame → List Slot → Bool
  | _, [] => true
  | _, .reset :: r => framesWhole .idle r
  | _, .start :: r => framesWhole .opened r
  | .opened, .stop :: r => framesWhole .idle r
  | .idle, .stop :: _ => false
  | .opened, .byte _ _ :: r => framesWhole .opened r
  | .idle, .byte _ _ :: _ => false

/-- One or more byte slots and then a STOP (R243 (d)). -/
def streamFed : List Slot → Bool
  | .byte _ _ :: .stop :: _ => true
  | .byte _ _ :: r => streamFed r
  | _ => false

/-- Every `S [x] S' [y]`, the items of `Begin(p)` (R124), is followed by one or more bytes and a STOP (R243 (d)). -/
def beginsFed : List Slot → Bool
  | [] => true
  | .start :: .byte _ _ :: .start :: .byte _ _ :: r => streamFed r && beginsFed r
  | _ :: r => beginsFed r

/-- How many STARTs. -/
def startCount : List Slot → Nat
  | [] => 0
  | .start :: r => startCount r + 1
  | .reset :: r | .stop :: r | .byte _ _ :: r => startCount r

/-- The levels (CLK_LVL, DIO_LVL) a run of items leaves (R36): those of its last item. -/
def linesAfter : Level × Level → List Slot → Level × Level
  | x, [] => x
  | _, .reset :: r => linesAfter (.high, .high) r
  | _, .stop :: r => linesAfter (.high, .high) r
  | _, .start :: r => linesAfter (.high, .low) r
  | _, .byte _ _ :: r => linesAfter (.low, .high) r

end Sys2Proof.Machine
end

