-- ==== Sys2Proof/Safety.lean ====
section
/-! DEFINITION. What counts as a safe run. The invariants of `10_state.md` R36, and the duties `70_reset_and_hazards.md` R243, R244 and R249
lay on a host that frames its own bytes. The block checks none of those duties (R243): they are a checker over a list of
operations, apart from the machine. -/

namespace Sys2Proof.Machine

open Sys2Proof

/-- The block takes operations: it has been reset and not closed since (R35, R212, R219). -/
def State.accepts (s : State) : Prop := s.built = true ∧ s.life = .opened

/-! ### Invariants (R36) -/

/-- R36 on the latches of a block that has been reset. The three pairs (CLK_LVL, DIO_LVL) are those after a `Tx`, after reset or
`Stop()`, and after `Start()`; the last two fix FRAME (R29). -/
def State.linesOk (s : State) : Bool :=
  s.clkDir == .output && s.dioDir == .output &&
    match s.clkLvl, s.dioLvl with
    | .low, .high => true
    | .high, .high => s.frame == .idle
    | .high, .low => s.frame == .opened
    | .low, .low => false

/-- The levels last set on a pin by a run of events, starting from `l` (R28). -/
def lastLevel (p : Pin) : Level → List PinEvent → Level
  | l, [] => l
  | l, .lvl q m :: r => lastLevel p (if q = p then m else l) r
  | l, .dir _ _ :: r => lastLevel p l r
  | l, .rd _ _ :: r => lastLevel p l r

/-- The direction last set on a pin by a run of events, starting from `d` (R28). -/
def lastDir (p : Pin) : Direction → List PinEvent → Direction
  | d, [] => d
  | d, .dir q e :: r => lastDir p (if q = p then e else d) r
  | d, .lvl _ _ :: r => lastDir p d r
  | d, .rd _ _ :: r => lastDir p d r

/-- Each latch mirrors the last primitive on it (R28), read off the trace. -/
def State.latchesMirrorTrace (s : State) : Prop :=
  s.clkLvl = lastLevel .clk s.clkLvl s.trace ∧ s.dioLvl = lastLevel .dio s.dioLvl s.trace ∧
    s.clkDir = lastDir .clk s.clkDir s.trace ∧ s.dioDir = lastDir .dio s.dioDir s.trace

/-- The trace is whole items and nothing else (R81, R240), FRAME is the phase they leave (R29), the two pins stand where the last
item left them (R36), and one sample was taken for each byte slot (R130). -/
def State.traceFramed (s : State) : Prop :=
  ∃ items, s.trace = wireEvents items ∧ s.frame = frameAfter .idle items ∧
    (s.clkLvl, s.dioLvl) = linesAfter (.high, .high) items ∧ s.drawn = byteCount items

/-- After CLOSE the recorded power is off (R149), and stays so while nothing is accepted (R212). -/
def State.closedIsOff (s : State) : Bool := s.life == .opened || !s.pwr

/-- The bits of a result word that R76 gives a completed operation: REFUSED, the zeros and REASON are 0. -/
def resultCompleted (w : ResultWord) : Bool := w.extractLsb' 9 7 == 0#7

/-! ### The host's framing duties (R243, R244, R249) -/

/-- Where a host that frames its own bytes stands: no frame; a frame with no byte yet; a frame whose first byte was a data or display
command; an auto-increment stream whose next byte lands at offset `next`, `owed` while BEGIN_WRITE has had no data byte. -/
inductive Phase where
  | idle
  | fresh
  | command
  | stream (next : Nat) (owed : Bool)
  deriving DecidableEq, Repr

/-- The first byte of a frame belongs to one of R84's classes (R243 (c)). Where two classes share a value the address class is
taken, the stricter one (log entry 14). -/
def Phase.first (c : Config) (b : Byte) : Option Phase :=
  if (b - c.cmdAddrBase).toNat < nposPhys then some (.stream (b - c.cmdAddrBase).toNat false)
  else if b = c.cmdDataAuto ∨ b = c.cmdDataFixed ∨ b = c.cmdDataTest ∨ b = c.cmdDataReadKeys ∨
      (b &&& 0xF8#8) = c.cmdDispOn ∨ (b &&& 0xF8#8) = c.cmdDispOff then some .command
  else none

/-- A START: a stream that still owes a byte may not be left (R243 (d)). A START by hand inside any other open frame, a fed stream or an empty
frame included, is accepted as a repeated START (R125) that goes on with the same frame, to be closed by a later STOP; R243 (b) and (d)
do not say whether that keeps the duty to close (DESIGN CHOICE, log entry 14). -/
def Phase.start : Phase → Option Phase
  | .stream _ true => none
  | .idle | .fresh | .command | .stream _ false => some .fresh

/-- A byte: not outside a frame (R243 (a)), a command class first (R243 (c)), and no offset above 5 in a stream (R249). -/
def Phase.byte (c : Config) (b : Byte) : Phase → Option Phase
  | .idle => none
  | .fresh => Phase.first c b
  | .command => some .command
  | .stream a _ => if a < nposPhys then some (.stream (a + 1) false) else none

/-- A STOP: not outside a frame (R244), and not before a stream's first byte (R243 (d)). -/
def Phase.stop : Phase → Option Phase
  | .idle => none
  | .stream _ true => none
  | .fresh | .command | .stream _ false => some .idle

/-- `if stop: Stop()`. -/
def Phase.stopIf (stop : Bool) (p : Phase) : Option Phase := if stop then p.stop else some p

/-- The phase after an operation, or none where it breaks a duty. A composed operation is issued with no frame open, since it
would leave the open frame unclosed (R243 (b)). -/
def Phase.op (c : Config) (p : Phase) : Instr → Option Phase
  | .txByte b => p.byte c b
  | .start => p.start
  | .stop => p.stop
  | .sendCmd b st => (p.start.bind (Phase.byte c b)).bind (Phase.stopIf st)
  | .sendData b st => (p.byte c b).bind (Phase.stopIf st)
  | .beginWrite q => p.start.map fun _ => .stream ((sat q).toNat - 1) true
  | .decode _ _ | .setCoding _ => some p
  | .clear | .setBlank _ | .testAll | .setInt _ _ | .setHours _ _ _ | .setMinutes _ _ | .close | .setPower _
  | .setBright _ => if p = .idle then some .idle else none

/-- The phase after a list of operations. -/
def Phase.ops (c : Config) : Phase → List Instr → Option Phase
  | p, [] => some p
  | p, i :: is => (p.op c i).bind fun q => q.ops c is

/-- A list of operations that keeps R243, R244 and R249: started with no frame open, and every frame closed at its end. -/
def disciplined (c : Config) (is : List Instr) : Bool := Phase.ops c .idle is == some .idle

/-- The phase and FRAME agree on whether a frame is open. -/
def Phase.agrees (p : Phase) (s : State) : Prop := p = .idle ↔ s.frame = .idle

end Sys2Proof.Machine
end

