-- ==== Sys2Proof/Certificates/Slice0/Obligations.lean ====
section
/-! DEFINITION. The statements for the provers. Each docstring names the rule of spec/ it rests on. `s.accepts` is "reset, and not closed
since": the states in which R219 makes every operation available. The frame notation is Wire.lean's. -/

open Sys2Proof Sys2Proof.Machine

/-! ### Encoding -/

/-- R71 to R74: the decoder inverts the encoder, at every operation and every operand. -/
def Obligations.DecodeInvertsEncode : Prop :=
  ∀ i : Instr, decode (encode i) = .ok i

/-- R71 to R75: a word that decodes is the word of what it decodes to, so no bit of it is ignored. -/
def Obligations.EncodeInvertsDecode : Prop :=
  ∀ (w : OpWord) (i : Instr), decode w = .ok i → encode i = w

/-- R74: a word is the operation X exactly when `(word & mask_X) = match_X`, and no two rows overlap. -/
def Obligations.MaskAndMatchDecide : Prop :=
  (∀ row ∈ maskTable, ∀ w : OpWord,
    w &&& row.2.2 = row.2.1 ↔ ∃ i, decode w = .ok i ∧ i.mnemonic = row.1) ∧
  maskTable.Pairwise fun r q => ∀ w : OpWord, ¬(w &&& r.2.2 = r.2.1 ∧ w &&& q.2.2 = q.2.1)

/-- R77: the unassigned OPC values, and their refusal, which changes no state and returns REFUSED = 1 with REASON 1. -/
def Obligations.UnassignedOpcRefused : Prop :=
  ∀ (w : OpWord) (s : State), s.built = true →
    ((let n := (w.extractLsb' 56 8).toNat
      n = 0 ∨ (0x07 ≤ n ∧ n ≤ 0x0F) ∨ (0x17 ≤ n ∧ n ≤ 0x1F) ∨ (0x22 ≤ n ∧ n ≤ 0x2F) ∨ 0x32 ≤ n) ↔
      present w s = .refused .unassigned) ∧
    (present w s = .refused .unassigned → ∀ rest,
      serve { s with inputs := .op w :: rest } = { s with inputs := rest, results := s.results ++ [0x8200#16] })

/-- R75: an assigned OPC with a 1 in a bit its mask requires to be 0 is refused: no state changes, no event, and a result word with
REFUSED = 1 (and REASON 2, R211). -/
def Obligations.ReservedBitRefused : Prop :=
  ∀ row ∈ maskTable, ∀ (w : OpWord) (s : State) (rest : List HostInput), s.built = true →
    w.extractLsb' 56 8 = row.2.1.extractLsb' 56 8 → w &&& row.2.2 ≠ row.2.1 →
      present w s = .refused .reserved ∧
      serve { s with inputs := .op w :: rest } = { s with inputs := rest, results := s.results ++ [0x8400#16] }

/-- R213: while CLOSED, where every word is refused, the lowest REASON that applies is the one reported. -/
def Obligations.LowestReasonReported : Prop :=
  ∀ (w : OpWord) (s : State), s.built = true → s.life = .closed →
    let assigned := ∃ row ∈ maskTable, w.extractLsb' 56 8 = row.2.1.extractLsb' 56 8
    let fits := ∃ row ∈ maskTable, w &&& row.2.2 = row.2.1
    (¬assigned → present w s = .refused .unassigned) ∧
    (assigned → ¬fits → present w s = .refused .reserved) ∧
    (fits → present w s = .refused .closed) ∧
    Refusal.reason .unassigned = some 1 ∧ Refusal.reason .reserved = some 2 ∧ Refusal.reason .closed = some 3

/-- Sample words written out from R74's patterns, one or more for each family. -/
def Obligations.SampleWordsDecode : Prop :=
  decode 0x0100400000000000 = .ok (.txByte 0x40) ∧
  decode 0x0400400100000000 = .ok (.sendCmd 0x40 true) ∧
  decode 0x05005B0000000000 = .ok (.sendData 0x5B false) ∧
  decode 0x1600000000000000 = .ok .close ∧
  decode 0x13000001FFFFFFFB = .ok (.setInt 0xFFFFFFFB true) ∧
  decode 0x1400000300000007 = .ok (.setHours 7 true true) ∧
  decode 0x2000070011223344 = .ok (.decode 0x11223344 7) ∧
  decode 0x2100000100000000 = .ok (.setCoding .rawByte) ∧
  decode 0x3000000100000000 = .ok (.setPower true) ∧
  decode 0x3100C80000000000 = .ok (.setBright 200)

/-- R76: the fields of the result word. -/
def Obligations.ResultWordLayout : Prop :=
  ∀ (refused : Bool) (reason : BitVec 2) (ack : Bool) (byte : Byte),
    let w := resultWord refused reason ack byte
    w.getLsbD 15 = refused ∧ w.extractLsb' 11 4 = 0#4 ∧ w.extractLsb' 9 2 = reason ∧ w.getLsbD 8 = ack ∧
      w.extractLsb' 0 8 = byte

/-- R79: the line of each operation, written in decimal or in hexadecimal, assembles to that operation; the line with an absent flag, SEND_CMD's
the only one not among those, to the default; and WRITE1's line to its two operations (R80). The space after a comma, or none, is the model's
(log entry 15). -/
def Obligations.AssembleReadsEveryOperation : Prop :=
  (∀ i : Instr, assemble i.mnemonic (asmArgs i) = some [i]) ∧
  (∀ (hex gap : Bool) (i : Instr), assembleLine (lineText hex gap i.mnemonic (asmArgs i)) = some [i]) ∧
  (∀ (hex gap : Bool) (b : Byte), assembleLine (lineText hex gap "SEND_CMD" [.num false b.toNat]) = some [.sendCmd b true]) ∧
  ∀ (hex gap : Bool) (p b : Byte),
    assembleLine (lineText hex gap "WRITE1" [.num false p.toNat, .num false b.toNat]) = some [.beginWrite p, .sendData b true]

/-! ### The port and the step -/

/-- R70, R230: a step runs the operation the next word decodes to, and with no word it waits. `withFetchWord` and the wait are
the model's (log entries 12 and 1). -/
def Obligations.StepRunsDecodedOperation : Prop :=
  (∀ (s : State) (w : OpWord) (rest : List HostInput) (i : Instr), s.built = true → s.inputs = .op w :: rest →
    decode w = .ok i → step s = exec i { s with inputs := rest }) ∧
  (∀ (s : State) (i : Instr), s.built = true →
    step (s.withFetchWord 64 (encode i).toNat) = exec i s) ∧
  (∀ s : State, s.inputs = [] → step s = .next s)

/-- R212: while CLOSED every operation is refused with REASON 3, and only reset leaves CLOSED. -/
def Obligations.OnlyResetLeavesClosed : Prop :=
  (∀ (i : Instr) (s : State), s.built = true → s.life = .closed → exec i s = .refused .closed) ∧
  Refusal.reason .closed = some 3 ∧
  (∀ s t : State, s.built = true → s.life = .closed → step s = .next t →
    t.life = .closed ∨ ∃ c rest, s.inputs = .reset c :: rest)

/-- R35, D39: before the first reset every operation is refused (the model's refusal of that name, log entry 7). -/
def Obligations.NothingRunsBeforeReset : Prop :=
  (∀ (i : Instr) (s : State), s.built = false → exec i s = .refused .beforeReset) ∧
  (∀ (w : OpWord) (s : State), s.built = false → present w s = .refused .beforeReset)

/-- R211: a refused input changes no register, latch, FRAME or LIFE and emits nothing. The host is answered with REFUSED = 1, ACK = 0,
BYTE = 0 and the REASON, where the refusal has one. The rule is stated of `serve`, the port as the host sees it (log entry 6). -/
def Obligations.RefusalOnlyAnswers : Prop :=
  ∀ (s : State) (x : HostInput) (rest : List HostInput) (r : Refusal), s.inputs = x :: rest →
    takeInput x { s with inputs := rest } = .refused r →
      step s = .refused r ∧
      ∃ answer : List ResultWord, serve s = { s with inputs := rest, results := s.results ++ answer } ∧
        (∀ k, r.reason = some k → answer = [resultWord true k false 0]) ∧ (r.reason = none → answer = [])

/-- R219, R210, R212: every operation is available in every state that is reset and not closed, and completes there. -/
def Obligations.EveryOperationCompletes : Prop :=
  ∀ (i : Instr) (s : State), s.accepts → ∃ t, exec i s = .next t

/-! ### Transmitter and framer -/

/-- R100: the 31 events of a byte, in order, the acknowledgement, and the latches after it; FRAME and every register are unchanged.
TX_BYTE returns the acknowledgement (R101, R76). -/
def Obligations.TxByteSendsOneByte : Prop :=
  ∀ (b : Byte) (s : State), s.accepts →
    let l := s.levelAt 0
    exec (.txByte b) s = .next { s with
      trace := s.trace ++ byteSlot b l
      clkLvl := .low
      dioDir := .output
      dioLvl := .high
      draws := s.draws.drop 1
      drawn := s.drawn + 1
      results := s.results ++ [if l = .low then 0x0100#16 else 0x0000#16] } ∧
    (byteSlot b l).length = 31

/-- R102: the ACK bit is true exactly when the level the acknowledgement slot sampled is low, read off the trace. -/
def Obligations.AckBitIsTheSampledLevel : Prop :=
  ∀ (i : Instr) (s t : State),
    ((∃ b, i = .txByte b) ∨ (∃ b st, i = .sendCmd b st) ∨ (∃ b st, i = .sendData b st)) →
    exec i s = .next t →
      ∃ w, t.results = s.results ++ [w] ∧
        (w.getLsbD 8 = true ↔ PinEvent.rd .dio .low ∈ t.trace.drop s.trace.length) ∧
        (w.getLsbD 8 = false ↔ PinEvent.rd .dio .high ∈ t.trace.drop s.trace.length)

/-- R120: START raises CLK, then drops DIO, and FRAME becomes OPEN, in either phase (R125). -/
def Obligations.StartOpensFrame : Prop :=
  ∀ s : State, s.accepts →
    exec .start s = .next { s with
      trace := s.trace ++ [.lvl .clk .high, .lvl .dio .low]
      clkLvl := .high
      dioLvl := .low
      frame := .opened
      results := s.results ++ [0#16] }

/-- R121: STOP drops DIO, raises CLK, raises DIO, and FRAME becomes IDLE, in either phase (R126). -/
def Obligations.StopClosesFrame : Prop :=
  ∀ s : State, s.accepts →
    exec .stop s = .next { s with
      trace := s.trace ++ [.lvl .dio .low, .lvl .clk .high, .lvl .dio .high]
      clkLvl := .high
      dioLvl := .high
      frame := .idle
      results := s.results ++ [0#16] }

/-- R122: SEND_CMD is a START, the byte, and a STOP if asked; it returns the byte's acknowledgement (R127). -/
def Obligations.SendCmdFramesOneByte : Prop :=
  ∀ (b : Byte) (stop : Bool) (s : State), s.accepts →
    let l := s.levelAt 0
    exec (.sendCmd b stop) s = .next
      ((if stop then s.afterFrames [.start, .byte b l, .stop] else s.afterBytes [.start, .byte b l]).respond
        (if l = .low then 0x0100#16 else 0x0000#16))

/-- R123: SEND_DATA is the byte with no START, and a STOP if asked; it returns the byte's acknowledgement (R128). Without a STOP it does what
TX_BYTE does. -/
def Obligations.SendDataContinuesFrame : Prop :=
  ∀ (b : Byte) (stop : Bool) (s : State), s.accepts →
    let l := s.levelAt 0
    exec (.sendData b stop) s = .next
      ((if stop then s.afterFrames [.byte b l, .stop] else s.afterBytes [.byte b l]).respond
        (if l = .low then 0x0100#16 else 0x0000#16)) ∧
    exec (.sendData b false) s = exec (.txByte b) s

/-- R124: BEGIN_WRITE sends the mode command and, after a repeated START, the position-select command of the saturated position; the frame stays
open, 66 events, and the second acknowledgement is returned (R129, D36). -/
def Obligations.BeginWriteLeavesFrameOpen : Prop :=
  ∀ (p : Byte) (s : State), s.accepts →
    let items := [Slot.start, .byte s.cfg.cmdDataAuto (s.levelAt 0), .start,
      .byte (s.cfg.cmdAddrBase + BitVec.ofNat 8 (min (max p.toNat 1) 6 - 1)) (s.levelAt 1)]
    exec (.beginWrite p) s = .next { s with
      trace := s.trace ++ wireEvents items
      clkLvl := .low
      dioDir := .output
      dioLvl := .high
      frame := .opened
      draws := s.draws.drop 2
      drawn := s.drawn + 2
      results := s.results ++ [if s.levelAt 1 = .low then 0x0100#16 else 0x0000#16] } ∧
    (wireEvents items).length = 66

/-- R80: WRITE1 expands to BEGIN_WRITE and SEND_DATA with stop, whose pin events are exactly those of `Write1(p, b)`. -/
def Obligations.WriteOnePseudoInstruction : Prop :=
  ∀ (p b : Byte),
    assemble "WRITE1" [.num false p.toNat, .num false b.toNat] = some [.beginWrite p, .sendData b true] ∧
    ∀ s : State, s.accepts →
      ∃ t u w1 w2, exec (.beginWrite p) s = .next t ∧ exec (.sendData b true) t = .next u ∧
        u = { write1 p b s with results := s.results ++ [w1, w2] }

/-! ### Sequences -/

/-- R141: CLEAR and TEST_ALL send one byte to all six positions in one frame of 255 events; 0x00 (R142) and 0xFF (R144). -/
def Obligations.FillWritesSixPositions : Prop :=
  ∀ s : State, s.accepts →
    exec .clear s = .next ((s.afterFrames (writeSlots s 0 1#8 [0, 0, 0, 0, 0, 0])).respond 0#16) ∧
    exec .testAll s = .next
      ((s.afterFrames (writeSlots s 0 1#8 [0xFF, 0xFF, 0xFF, 0xFF, 0xFF, 0xFF])).respond 0#16) ∧
    ∀ b : Byte, (wireEvents (writeSlots s 0 1#8 [b, b, b, b, b, b])).length = 255 ∧
      memWrites s.cfg (writeSlots s 0 1#8 [b, b, b, b, b, b]) = [(0, b), (1, b), (2, b), (3, b), (4, b), (5, b)]

/-- R140: `Write1(p, b)` is one frame of 100 events, and ends with FRAME = IDLE; SET_BLANK is it with 0x00 (R143). -/
def Obligations.SetBlankWritesOnePosition : Prop :=
  ∀ (p b : Byte) (s : State),
    write1 p b s = s.afterFrames (writeSlots s 0 p [b]) ∧
    (wireEvents (writeSlots s 0 p [b])).length = 100 ∧
    (write1 p b s).frame = .idle ∧
    (s.accepts → exec (.setBlank p) s = .next ((s.afterFrames (writeSlots s 0 p [0x00])).respond 0#16))

/-- R145, R146: SET_INT emits one write frame for each digit and sign that R146's closed form lists, and nothing else changes. -/
def Obligations.SetIntWritesItsDigits : Prop :=
  ∀ (n : Value) (colon : Bool) (s : State), s.accepts →
    exec (.setInt n colon) s =
      .next ((s.afterFrames (writesSlots s 0 (intShown s.cod n colon))).respond 0#16)

/-- R145, R171, R27: under packed coding the j-th byte SET_INT writes is the ROM pattern of the j-th decimal digit of the magnitude. -/
def Obligations.SetIntShowsDecimalDigits : Prop :=
  ∀ (n : Value) (colon : Bool) (j : Nat), n ≠ 0#32 → j < digitsShown n →
    (intWrites .packedDecimal n colon)[j]? =
      some (4 - j, rom (n.toInt.natAbs / 10 ^ j % 10) ||| (if j = 2 ∧ colon = true then 0x80#8 else 0x00#8))

/-- R147, R148: the two clock fields, whatever COD holds: the tens and the ones of the value as decimal digits, a blank tens for 1..9 unless
`zero` is set, the colon in the hours' ones digit. -/
def Obligations.ClockFieldsShowTwoDigits : Prop :=
  ∀ (v : Value) (colon zero : Bool) (s : State), s.accepts →
    let tens : Byte := if v ≠ 0#32 ∧ v.toNat < 10 ∧ zero = false then 0x00 else rom (v.toNat / 10 % 10)
    let ones : Byte := rom (v.toNat % 10)
    exec (.setHours v colon zero) s = .next
      ((s.afterFrames (writeSlots s 0 1#8 [tens, ones ||| (if colon then 0x80#8 else 0x00#8)])).respond 0#16) ∧
    exec (.setMinutes v zero) s = .next ((s.afterFrames (writeSlots s 0 3#8 [tens, ones])).respond 0#16)

/-- R149: CLOSE clears the display, powers it off, and sets LIFE to CLOSED. -/
def Obligations.CloseClearsAndPowersOff : Prop :=
  ∀ s : State, s.accepts →
    let items := writeSlots s 0 1#8 [0, 0, 0, 0, 0, 0] ++ controlSlots s 8 s.cfg.cmdDispOff
    exec .close s = .next ({ s.afterFrames items with pwr := false, life := .closed }.respond 0#16)

/-- R53, R54, R11: an operand position is saturated to 1..6, its command byte is the base plus the offset modulo 256, and the bytes of a stream land
at consecutive offsets. That the reading counts on past offset 5 is the model's choice (log entry 21). -/
def Obligations.StreamsLandAtConsecutiveOffsets : Prop :=
  ∀ (c : Config) (p : Byte) (s : State) (k : Nat) (bs : List Byte),
    (sat p).toNat = (if p.toNat < 1 then 1 else if p.toNat > 6 then 6 else p.toNat) ∧
    (addr c (sat p)).toNat = (c.cmdAddrBase.toNat + ((sat p).toNat - 1)) % 256 ∧
    memWrites s.cfg (writeSlots s k p bs) = bs.zipIdx.map fun x => ((sat p).toNat - 1 + x.2, x.1)

/-! ### Decoder and coding mode -/

/-- R171, R175: packed decode is the pattern of the decimal digit at the clamped index, blank beyond the digits present, and the zero pattern at every
index of zero. DECODE returns it, emits nothing and changes nothing else. -/
def Obligations.DecodePackedReadsDecimalDigit : Prop :=
  ∀ (v : Value) (i : Byte) (s : State), s.accepts → s.cod = .packedDecimal →
    exec (.decode v i) s = .next (s.respond (0x00#8 ++
      (if v = 0#32 then 0x3F#8
        else match (Nat.digits 10 v.toNat)[min i.toNat 3]? with
          | some d => rom d
          | none => 0x00#8)))

/-- R172, R170: raw decode is the byte at the clamped index, bit for bit. -/
def Obligations.DecodeRawReadsByte : Prop :=
  ∀ (v : Value) (i : Byte) (s : State), s.accepts → s.cod = .rawByte →
    ∃ b : Byte, exec (.decode v i) s = .next (s.respond (0x00#8 ++ b)) ∧
      ∀ k < 8, b.getLsbD k = v.getLsbD (8 * min i.toNat 3 + k)

/-- R174: the decoder's value laws, with the ROM's ten bytes as R27 lists them. -/
def Obligations.DecoderValueLaws : Prop :=
  (List.range 10).map (fun n => decP (BitVec.ofNat 32 n) 0#8) =
    [0x3F#8, 0x06#8, 0x5B#8, 0x4F#8, 0x66#8, 0x6D#8, 0x7D#8, 0x07#8, 0x7F#8, 0x6F#8] ∧
  romBytes = [0x3F#8, 0x06#8, 0x5B#8, 0x4F#8, 0x66#8, 0x6D#8, 0x7D#8, 0x07#8, 0x7F#8, 0x6F#8] ∧
  (∀ v : Value, v.toNat < 10 → decP v 0#8 = rom v.toNat) ∧
  (∀ i : Byte, decP 0#32 i = 0x3F#8) ∧
  (∀ (v : Value) (i : Byte), (decP v i = 0x00#8 ∨ decP v i ∈ romBytes) ∧ (decP v i).getLsbD 7 = false) ∧
  (∀ (b i : Byte), ∃ v : Value, decR v i = b)

/-- R176: SET_CODING writes COD and nothing else, and emits nothing. -/
def Obligations.SetCodingWritesCod : Prop :=
  ∀ (m : Coding) (s : State), s.accepts →
    exec (.setCoding m) s = .next { s with cod := m, results := s.results ++ [0#16] }

/-! ### Power and brightness -/

/-- R190: SET_POWER records the state and sends the mode command and the base code with step 0, each in a frame of its own; BRT is not written. -/
def Obligations.SetPowerSendsBaseCode : Prop :=
  ∀ (on : Bool) (s : State), s.accepts →
    exec (.setPower on) s = .next
      (({ s with pwr := on }.afterFrames
        (controlSlots s 0 (if on then s.cfg.cmdDispOn else s.cfg.cmdDispOff))).respond 0#16)

/-- R191, R192: SET_BRIGHT records `l div 32` and sends it on the base code PWR selects, whatever PWR holds; PWR is not written. -/
def Obligations.SetBrightSendsStep : Prop :=
  ∀ (l : Byte) (s : State), s.accepts →
    let step := BitVec.ofNat 3 (l.toNat / 32)
    exec (.setBright l) s = .next
      (({ s with brt := step }.afterFrames
        (controlSlots s 0 ((if s.pwr then s.cfg.cmdDispOn else s.cfg.cmdDispOff) ||| step.setWidth 8))).respond 0#16)

/-- R193: the brightness laws, for a configuration that meets R87. -/
def Obligations.BrightnessLaws : Prop :=
  (∀ l : Byte, (brightStep l).toNat = l.toNat / 32) ∧
  (∀ (c : Config) (on : Bool) (l : Byte), c.wf = true →
    (disp c on (brightStep l)).extractLsb' 0 3 = brightStep l ∧
    (disp c on (brightStep l)).extractLsb' 3 5 = (if on then c.cmdDispOn else c.cmdDispOff).extractLsb' 3 5) ∧
  (∀ (c : Config) (on : Bool) (l m : Byte), c.wf = true →
    (disp c on (brightStep l) ^^^ disp c on (brightStep m)) &&& 0xF8#8 = 0#8)

/-! ### Reset -/

/-- R230, R232: reset, in any state (R231): four events, the registers and latches at their reset values, and SET_BRIGHT's frames only where
INIT_EMITS_BRIGHTNESS holds. The host's inputs, results and samples lie outside the block (log entries 1, 2 and 8). -/
def Obligations.ResetSetsEverything : Prop :=
  ∀ (c : Config) (s : State) (rest : List HostInput), c.wf = true → s.inputs = .reset c :: rest →
    let step3 := BitVec.ofNat 3 (c.initBrightness.toNat / 32)
    let r : State :=
      { cfg := c, pwr := c.resetPwr, brt := step3, cod := .packedDecimal, clkLvl := .high, clkDir := .output
        dioLvl := .high, dioDir := .output, frame := .idle, life := .opened
        trace := s.trace ++ [.lvl .clk .high, .lvl .dio .high, .dir .clk .output, .dir .dio .output]
        built := true, inputs := rest, results := s.results, draws := s.draws, drawn := s.drawn }
    step s = .next
      (if c.initEmitsBrightness then
        r.afterFrames (controlSlots r 0 ((if c.resetPwr then c.cmdDispOn else c.cmdDispOff) ||| step3.setWidth 8))
      else r)

/-- R35: the model's reset state is what the first reset makes of an unwritten block, under the default configuration (log entries 3 and 4). -/
def Obligations.ResetStateIsFirstReset : Prop :=
  step { State.unbuilt with inputs := [.reset Config.default] } = .next State.reset

/-- R87, D29: a reset with a configuration outside the constraints is refused. -/
def Obligations.BadConfigurationRefused : Prop :=
  ∀ (c : Config) (s : State) (rest : List HostInput), s.inputs = .reset c :: rest →
    (c.clkPin = c.dioPin ∨ c.cmdDispOn.extractLsb' 0 3 ≠ 0#3 ∨ c.cmdDispOff.extractLsb' 0 3 ≠ 0#3) →
      step s = .refused .badConfiguration

/-! ### Whole-machine rules -/

/-- R251: the number of events each operation, and reset, appends; SET_INT between 100 and 400. -/
def Obligations.EventCounts : Prop :=
  (∀ (i : Instr) (s t : State), exec i s = .next t → t.trace.length = s.trace.length + eventCount i) ∧
  (∀ (n : Value) (colon : Bool), 100 ≤ eventCount (.setInt n colon) ∧ eventCount (.setInt n colon) ≤ 400) ∧
  (∀ (c : Config) (s : State), (applyReset c s).trace.length = s.trace.length + resetEventCount c)

/-- R22, R30, R31, R32: which operation may change which register, and that the trace and the results (log entry 8) are only
added to. -/
def Obligations.RegistersHaveTheirWriters : Prop :=
  ∀ (i : Instr) (s t : State), exec i s = .next t →
    t.cfg = s.cfg ∧ t.built = s.built ∧ t.inputs = s.inputs ∧ t.clkDir = s.clkDir ∧
    (t.pwr ≠ s.pwr → (∃ on, i = .setPower on) ∨ i = .close) ∧
    (t.brt ≠ s.brt → ∃ l, i = .setBright l) ∧
    (t.cod ≠ s.cod → ∃ m, i = .setCoding m) ∧
    (t.life ≠ s.life → i = .close) ∧
    s.trace <+: t.trace ∧ ∃ w, t.results = s.results ++ [w]

/-- R30, R231: a step only appends to the pin trace, a reset included; a step with no input, DECODE and SET_CODING (R61) append nothing. -/
def Obligations.TraceIsOnlyAppendedTo : Prop :=
  (∀ s t : State, step s = .next t → s.trace <+: t.trace) ∧
  (∀ s t : State, s.inputs = [] → step s = .next t → t.trace = s.trace) ∧
  (∀ (i : Instr) (s t : State), ((∃ v k, i = .decode v k) ∨ (∃ m, i = .setCoding m)) → exec i s = .next t →
    t.trace = s.trace ∧ t.drawn = s.drawn)

/-- R24, R29: no operation reads BRT or FRAME: changing them before changes nothing else after. -/
def Obligations.NoOperationReadsBrtOrFrame : Prop :=
  ∀ (i : Instr) (s t : State) (x : BitVec 3) (f : Frame), exec i s = .next t →
    ∃ t', exec i { s with brt := x, frame := f } = .next t' ∧ { t' with brt := t.brt, frame := t.frame } = t

/-- R22, R147: COD is read by DECODE and SET_INT alone, and PWR by SET_BRIGHT alone. -/
def Obligations.CodingAndPowerHaveTheirReaders : Prop :=
  (∀ (i : Instr) (s t : State) (m : Coding), (∀ v k, i ≠ .decode v k) → (∀ n c, i ≠ .setInt n c) →
    exec i s = .next t → ∃ t', exec i { s with cod := m } = .next t' ∧ { t' with cod := t.cod } = t) ∧
  (∀ (i : Instr) (s t : State) (p : Bool), (∀ l, i ≠ .setBright l) →
    exec i s = .next t → ∃ t', exec i { s with pwr := p } = .next t' ∧ { t' with pwr := t.pwr } = t)

/-- R103, R104, R214: whatever levels the chip answers with, the block does the same: the two runs differ in the levels recorded by the reads and
in the ACK bit of an operation that reports one, and in nothing else. -/
def Obligations.AcknowledgementsChangeOnlyReports : Prop :=
  ∀ (i : Instr) (s t : State) (d : List Level) (n : Nat), exec i s = .next t →
    ∃ t' w w', exec i { s with draws := d, drawn := n } = .next t' ∧
      t'.trace.map eraseRead = t.trace.map eraseRead ∧
      t.results = s.results ++ [w] ∧ t'.results = s.results ++ [w'] ∧
      w &&& 0xFEFF#16 = w' &&& 0xFEFF#16 ∧ (reportsAck i = false → w = w') ∧
      { t' with trace := t.trace, results := t.results, draws := t.draws, drawn := t.drawn } = t

/-- R88, R243, R249: a composed operation keeps the framing duties by itself: every byte and STOP inside a frame, a command first in every frame,
one or more data bytes and a STOP after every `Begin(p)`, no offset above 5, and the frame closed at its end. -/
def Obligations.ComposedOperationsKeepFraming : Prop :=
  ∀ (i : Instr) (s t : State), composed i = true → exec i s = .next t →
    ∃ items, t.trace = s.trace ++ wireEvents items ∧ framesWhole .idle items = true ∧
      frameAfter .idle items = .idle ∧ t.frame = .idle ∧
      (∀ b ∈ frameHeads false items, isBlockCommand s.cfg b = true) ∧ beginsFed items = true ∧
      ∀ x ∈ memWrites s.cfg items, x.1 < nposPhys

/-- R120, R244: START by START, each START of an operation other than STOP is a falling edge of DIO with CLK high, but for a START that comes first
with DIO already low, as it is straight after a START (R36), which makes no edge; and no other item drives a START condition. So with DIO high
before, there is one START condition for each START. Edges are read off the latches (log entry 18). -/
def Obligations.EveryStartIsAFallingEdge : Prop :=
  ∀ (i : Instr) (s t : State), i ≠ .stop → exec i s = .next t →
    ∃ items, t.trace = s.trace ++ wireEvents items ∧
      (∀ (a b : List Slot) (x : Slot), items = a ++ x :: b →
        let found := conditions (lastLevel .clk s.clkLvl (wireEvents a)) (lastLevel .dio s.dioLvl (wireEvents a)) x.events
        (x = .start → found = if a = [] ∧ s.dioLvl = .low then [] else [.start]) ∧
        (x ≠ .start → .start ∉ found)) ∧
      (s.dioLvl = .high → (conditions s.clkLvl s.dioLvl (wireEvents items)).count .start = startCount items)

/-- R244: STOP with both lines high drives a START condition and then the STOP; straight after a START, or with CLK low, it drives the STOP
condition alone. Edges are read off the latches (log entry 18). -/
def Obligations.StopOutsideFrameDrivesStart : Prop :=
  ∀ s : State, s.accepts → ∃ t, exec .stop s = .next t ∧
    (s.clkLvl = .high → s.dioLvl = .high →
      conditions s.clkLvl s.dioLvl (t.trace.drop s.trace.length) = [.start, .stop]) ∧
    (s.clkLvl = .high → s.dioLvl = .low →
      conditions s.clkLvl s.dioLvl (t.trace.drop s.trace.length) = [.stop]) ∧
    (s.clkLvl = .low → conditions s.clkLvl s.dioLvl (t.trace.drop s.trace.length) = [.stop])

/-- R242 (b), R105: in a byte slot the 24 events of the eight bit slots make no condition, nor do the acknowledgement slot's up to its
`Dir(DIO, output)`; the `Lvl(DIO, high)` after that makes a rising edge with CLK high where bit 7 of the byte is 0, and none where it is 1; and the
last event makes none. Edges are read off the latches (log entry 18). -/
def Obligations.ByteSlotEdgeOnlyAfterAck : Prop :=
  ∀ (b : Byte) (l c d : Level), ∃ bits : List PinEvent,
    byteSlot b l = bits ++ ackSlot l ∧ bits.length = 24 ∧ conditions c d bits = [] ∧
    let found := fun n => conditions (lastLevel .clk c bits) (lastLevel .dio d bits) ((ackSlot l).take n)
    let edge := if b.getLsbD 7 = true then [] else [Condition.stop]
    found 5 = [] ∧ found 6 = edge ∧ found 7 = edge ∧ conditions c d (byteSlot b l) = edge

/-- R30, R81, D37: the pin trace determines its frames, byte for byte and sample for sample. -/
def Obligations.TraceReadsBack : Prop :=
  ∀ items : List Slot, readTrace (wireEvents items) = some items

/-! ### Invariants -/

/-- R240, R81, R36, R29, R130: every step keeps the trace whole items, with FRAME, the levels of the two pins and the number of samples those they
imply. -/
def Obligations.StepKeepsTraceFramed : Prop :=
  ∀ s t : State, s.traceFramed → step s = .next t → t.traceFramed

/-- R36: every step keeps CLK an output, DIO an output between operations, and the pin levels one of the three pairs R36 lists. -/
def Obligations.StepKeepsLines : Prop :=
  ∀ s t : State, s.linesOk = true → step s = .next t → t.linesOk = true

/-- R28: every step keeps each latch equal to the last primitive on it in the trace. -/
def Obligations.StepKeepsLatchesMirrorTrace : Prop :=
  ∀ s t : State, s.latchesMirrorTrace → step s = .next t → t.latchesMirrorTrace

/-- R87, R149, R76: every step keeps the configuration well-formed, PWR off while CLOSED, and every result returned that of a completed operation. -/
def Obligations.StepKeepsConfigAndClosedOff : Prop :=
  ∀ s t : State,
    (s.cfg.wf = true ∧ s.closedIsOff = true ∧ ∀ w ∈ s.results, resultCompleted w = true) → step s = .next t →
      (t.cfg.wf = true ∧ t.closedIsOff = true ∧ ∀ w ∈ t.results, resultCompleted w = true)

/-- The invariants hold in the model's reset state. -/
def Obligations.ResetMeetsInvariants : Prop :=
  State.reset.traceFramed ∧ State.reset.linesOk = true ∧ State.reset.latchesMirrorTrace ∧
    State.reset.cfg.wf = true ∧ State.reset.closedIsOff = true ∧
    ∀ w ∈ State.reset.results, resultCompleted w = true

/-- R243, R244: a list of operations that keeps the host's framing duties, run by `step` from a state with no frame open, runs to its end, sends
every byte and STOP inside a frame, and leaves no frame open. A CLOSE may stand last, after which nothing runs (R212). The checker of the duties,
`disciplined`, is the model's choice (log entry 14). -/
def Obligations.DisciplinedRunKeepsFraming : Prop :=
  ∀ (s : State) (is : List Instr), s.accepts → s.frame = .idle → (∀ i ∈ is.dropLast, i ≠ .close) →
    disciplined s.cfg is = true →
      ∃ t items, Host.Core.run Sys2Proof.core is.length { s with inputs := is.map fun i => .op (encode i) } = .next t ∧
        t.trace = s.trace ++ wireEvents items ∧ framesWhole .idle items = true ∧ t.frame = .idle ∧
        t.inputs = [] ∧ t.results.length = s.results.length + is.length
end

