-- ==== Sys2Proof/Laws/Assembler.lean ====
section
/-! SUPPORT. A line written by `lineText` is read back by `assembleLine` (`30_encoding.md` R79): its numerals, its operands, its parts. -/

namespace Sys2Proof.Machine
open Sys2Proof

/-- A digit's character reads back as the digit. -/
theorem digitOf_digitChar {base d : Nat} (hd : d < base) (hb : base ≤ 16) : digitOf base (digitChar d) = some d := by
  have h : d < 16 := by omega
  interval_cases d <;> simp [digitOf, digitChar, hd]

/-- A digit's character is neither a comma, nor a space, nor a sign. -/
theorem digitChar_ne {d : Nat} (h : d < 16) : digitChar d ≠ ',' ∧ digitChar d ≠ ' ' ∧ digitChar d ≠ '-' := by
  interval_cases d <;> decide

/-- A decimal digit's character is one of ten. -/
theorem digitChar_decimal {d : Nat} (h : d < 10) : 48 ≤ (digitChar d).toNat ∧ (digitChar d).toNat ≤ 57 := by
  interval_cases d <;> decide

theorem numberFrom_append (base acc : Nat) (xs : List Char) (c : Char) :
    numberFrom base acc (xs ++ [c]) = (numberFrom base acc xs).bind fun m => (digitOf base c).map fun d => m * base + d := by
  induction xs generalizing acc with
  | nil => cases h : digitOf base c <;> simp [numberFrom, h]
  | cons x xs ih =>
    simp only [List.cons_append, numberFrom]
    cases digitOf base x <;> simp [ih]

/-- A numeral long enough reads back as its number. -/
theorem numberFrom_numeral {base : Nat} (h2 : 2 ≤ base) (hb : base ≤ 16) :
    ∀ (fuel n : Nat), n < base ^ fuel → 0 < fuel → numberFrom base 0 (numeral base fuel n) = some n := by
  intro fuel
  induction fuel with
  | zero => intro n _ h; omega
  | succ fuel ih =>
    intro n hn _
    unfold numeral
    split
    · rename_i h
      simp [numberFrom, digitOf_digitChar h hb]
    · rename_i h
      have hq : n / base < base ^ fuel := Nat.div_lt_of_lt_mul (by rwa [Nat.mul_comm, ← Nat.pow_succ])
      have hf : 0 < fuel := by
        rcases fuel with _ | k
        · simp at hq; omega
        · omega
      rw [numberFrom_append, ih _ hq hf, digitOf_digitChar (Nat.mod_lt _ (by omega)) hb]
      simp [Nat.div_add_mod']

/-- Every character of a numeral is a digit's. -/
theorem mem_numeral {base : Nat} (h2 : 0 < base) : ∀ (fuel n : Nat), ∀ c ∈ numeral base fuel n, ∃ d < base, c = digitChar d := by
  intro fuel
  induction fuel with
  | zero => intro n c h; cases h
  | succ fuel ih =>
    intro n c hc
    unfold numeral at hc
    split at hc
    · rename_i h
      exact ⟨n, h, by simpa using hc⟩
    · rcases List.mem_append.mp hc with hc | hc
      · exact ih _ _ hc
      · exact ⟨n % base, Nat.mod_lt _ h2, by simpa using hc⟩

theorem numeral_ne_nil (base fuel n : Nat) : numeral base (fuel + 1) n ≠ [] := by
  unfold numeral
  split <;> simp

/-- A decimal numeral reads as a number. -/
theorem readArg_decimal (cs : List Char) (h : cs ≠ []) (hd : ∀ c ∈ cs, ∃ d < 10, c = digitChar d) :
    readArg cs = (numberFrom 10 0 cs).map (.num false) := by
  have hc : ∀ c ∈ cs, 48 ≤ c.toNat ∧ c.toNat ≤ 57 := by
    intro c hm
    obtain ⟨d, hd, rfl⟩ := hd c hm
    exact digitChar_decimal hd
  unfold readArg
  split
  case h_11 => rfl
  case h_12 => exact absurd rfl h
  case h_9 => exact absurd (hc 'x' (by simp)) (by decide)
  case h_10 => exact absurd (hc '-' (by simp)) (by decide)
  all_goals exact absurd (hc _ (List.mem_cons_self)) (by decide)

/-- An operand that R79 can write. -/
def AsmArg.fits : AsmArg → Prop
  | .num _ n => n < 2 ^ 32
  | .key _ => True

/-- The text of an operand reads back as the operand. -/
theorem readArg_text (hex : Bool) (a : AsmArg) (h : a.fits) : readArg (a.text hex) = some a := by
  cases a with
  | key k => cases k <;> rfl
  | num neg n =>
    have hn : n < 10 ^ 10 := Nat.lt_trans h (by decide)
    have h16 : n < 16 ^ 10 := Nat.lt_trans h (by decide)
    have e10 := numberFrom_numeral (base := 10) (by decide) (by decide) 10 n hn (by decide)
    have e16 := numberFrom_numeral (base := 16) (by decide) (by decide) 10 n h16 (by decide)
    cases neg
    · cases hex
      · simp only [AsmArg.text, Bool.false_eq_true, if_false]
        rw [readArg_decimal _ (numeral_ne_nil 10 9 n) (mem_numeral (by decide) 10 n), e10]
        rfl
      · simp only [AsmArg.text, if_true]
        obtain ⟨d, ds, hc⟩ := List.exists_cons_of_ne_nil (numeral_ne_nil 16 9 n)
        rw [hc] at e16 ⊢
        simp [readArg, e16]
    · simp only [AsmArg.text]
      obtain ⟨d, ds, hc⟩ := List.exists_cons_of_ne_nil (numeral_ne_nil 10 9 n)
      rw [hc] at e10 ⊢
      simp [readArg, e10]

/-- The text of an operand holds no comma and no space, and is not empty. -/
theorem text_chars (hex : Bool) (a : AsmArg) : a.text hex ≠ [] ∧ ∀ c ∈ a.text hex, c ≠ ',' ∧ c ≠ ' ' := by
  have digits : ∀ base fuel n, 0 < base → base ≤ 16 → ∀ c ∈ numeral base fuel n, c ≠ ',' ∧ c ≠ ' ' := by
    intro base fuel n h0 hb c hc
    obtain ⟨d, hd, rfl⟩ := mem_numeral h0 fuel n c hc
    exact ⟨(digitChar_ne (by omega)).1, (digitChar_ne (by omega)).2.1⟩
  cases a with
  | key k => cases k <;> simp [AsmArg.text, Keyword.text]
  | num neg n =>
    cases neg
    · cases hex
      · exact ⟨numeral_ne_nil 10 9 n, digits 10 10 n (by decide) (by decide)⟩
      · refine ⟨List.cons_ne_nil _ _, fun c hc => ?_⟩
        simp only [AsmArg.text, if_true, List.mem_cons] at hc
        rcases hc with rfl | rfl | hc
        · decide
        · decide
        · exact digits 16 10 n (by decide) (by decide) c hc
    · refine ⟨List.cons_ne_nil _ _, fun c hc => ?_⟩
      simp only [AsmArg.text, List.mem_cons] at hc
      rcases hc with rfl | hc
      · decide
      · exact digits 10 10 n (by decide) (by decide) c hc

/-- A text with no space at either end is left as it is. -/
theorem trim_eq (cs : List Char) (h1 : cs.head? ≠ some ' ') (h2 : cs.getLast? ≠ some ' ') : trim cs = cs := by
  have drop : ∀ l : List Char, l.head? ≠ some ' ' → l.dropWhile (· == ' ') = l := by
    intro l hl
    cases l with
    | nil => rfl
    | cons c l => simp_all
  rw [trim, drop cs h1, drop cs.reverse (by rwa [List.head?_reverse]), List.reverse_reverse]

theorem trim_space (cs : List Char) : trim (' ' :: cs) = trim cs := by simp [trim]

/-- A text without the separator is one part; a separator after it ends the part. -/
theorem splitAt_part (sep : Char) (xs ys : List Char) (h : ∀ c ∈ xs, c ≠ sep) :
    splitAt sep xs = [xs] ∧ splitAt sep (xs ++ sep :: ys) = xs :: splitAt sep ys := by
  induction xs with
  | nil => simp [splitAt]
  | cons x xs ih =>
    have hx : (x == sep) = false := by simpa using h x (by simp)
    have := ih fun c hc => h c (by simp [hc])
    simp [splitAt, hx, this.1, this.2]

/-- The parts of a line's operands read back as the operands. -/
theorem mapM_argsText (hex gap : Bool) (args : List AsmArg) (ha : args ≠ []) (h : ∀ a ∈ args, a.fits) :
    ((splitAt ',' (argsText hex gap args)).mapM fun a => readArg (trim a)) = some args ∧
    ((splitAt ',' (' ' :: argsText hex gap args)).mapM fun a => readArg (trim a)) = some args := by
  have read : ∀ a : AsmArg, a.fits → readArg (trim (a.text hex)) = some a ∧ readArg (trim (' ' :: a.text hex)) = some a := by
    intro a hf
    obtain ⟨-, hc⟩ := text_chars hex a
    have e : trim (a.text hex) = a.text hex :=
      trim_eq _ (fun he => (hc _ (List.mem_of_mem_head? he)).2 rfl) (fun he => (hc _ (List.mem_of_mem_getLast? he)).2 rfl)
    rw [trim_space, e, readArg_text hex a hf]
    exact ⟨rfl, rfl⟩
  induction args with
  | nil => exact absurd rfl ha
  | cons a as ih =>
    have hc : ∀ c ∈ a.text hex, c ≠ ',' := fun c hm => ((text_chars hex a).2 c hm).1
    have hs : ∀ c ∈ ' ' :: a.text hex, c ≠ ',' := by
      intro c hm
      rcases List.mem_cons.mp hm with rfl | hm
      · decide
      · exact hc c hm
    have ra := read a (h a (by simp))
    cases as with
    | nil => simp [argsText, (splitAt_part ',' _ [] hc).1, (splitAt_part ',' _ [] hs).1, ra]
    | cons b bs =>
      have rest := ih (by simp) fun x hx => h x (by simp [hx])
      have tail : ((splitAt ',' ((if gap then [' '] else []) ++ argsText hex gap (b :: bs))).mapM fun a => readArg (trim a)) =
          some (b :: bs) := by
        cases gap
        · exact rest.1
        · exact rest.2
      have e : argsText hex gap (a :: b :: bs) =
          a.text hex ++ ',' :: ((if gap then [' '] else []) ++ argsText hex gap (b :: bs)) := by simp [argsText]
      rw [e, (splitAt_part ',' _ _ hc).2, ← List.cons_append, (splitAt_part ',' _ _ hs).2, List.mapM_cons, List.mapM_cons, tail]
      simp [ra]

theorem argsText_ends (hex gap : Bool) (args : List AsmArg) (ha : args ≠ []) :
    argsText hex gap args ≠ [] ∧ (argsText hex gap args).head? ≠ some ' ' ∧ (argsText hex gap args).getLast? ≠ some ' ' := by
  induction args with
  | nil => exact absurd rfl ha
  | cons a as ih =>
    obtain ⟨hn, hc⟩ := text_chars hex a
    have hh : (a.text hex).head? ≠ some ' ' := fun he => (hc _ (List.mem_of_mem_head? he)).2 rfl
    have hl : (a.text hex).getLast? ≠ some ' ' := fun he => (hc _ (List.mem_of_mem_getLast? he)).2 rfl
    cases as with
    | nil => exact ⟨hn, hh, hl⟩
    | cons b bs =>
      obtain ⟨hn', -, hl'⟩ := ih (by simp)
      have e : argsText hex gap (a :: b :: bs) =
          a.text hex ++ ',' :: (if gap then [' '] else []) ++ argsText hex gap (b :: bs) := by simp [argsText]
      rw [e]
      refine ⟨by simp, ?_, ?_⟩
      · rw [List.append_assoc, List.head?_append_of_ne_nil _ hn]
        exact hh
      · rw [List.getLast?_append_of_ne_nil _ hn']
        exact hl'

/-- The text of a line assembles to what its mnemonic and its operands do. -/
theorem assembleLine_lineText (hex gap : Bool) (name : String) (args : List AsmArg) (hn : name.toList ≠ [])
    (hs : ∀ c ∈ name.toList, c ≠ ' ') (ha : ∀ a ∈ args, a.fits) :
    assembleLine (lineText hex gap name args) = assemble name args := by
  have hh : name.toList.head? ≠ some ' ' := fun he => hs _ (List.mem_of_mem_head? he) rfl
  have hl : name.toList.getLast? ≠ some ' ' := fun he => hs _ (List.mem_of_mem_getLast? he) rfl
  have take : ∀ r, (name.toList ++ ' ' :: r).takeWhile (· != ' ') = name.toList ∧
      (name.toList ++ ' ' :: r).dropWhile (· != ' ') = ' ' :: r := by
    intro r
    rw [List.takeWhile_append_of_pos (by simpa using hs), List.dropWhile_append_of_pos (by simpa using hs)]
    simp
  rcases args with _ | ⟨a, as⟩
  · have e : lineText hex gap name [] = name.toList := by simp [lineText]
    have d : name.toList.dropWhile (· != ' ') = [] := by simpa using hs
    have k : name.toList.takeWhile (· != ' ') = name.toList := by simpa using hs
    have n : trim [] = [] := rfl
    simp only [assembleLine, e, trim_eq _ hh hl, d, k, n, List.isEmpty_nil, if_true, Option.bind_some, String.ofList_toList]
  · obtain ⟨an, ah, al⟩ := argsText_ends hex gap (a :: as) (by simp)
    have e : lineText hex gap name (a :: as) = name.toList ++ ' ' :: argsText hex gap (a :: as) := by simp [lineText]
    have t : trim (name.toList ++ ' ' :: argsText hex gap (a :: as)) = name.toList ++ ' ' :: argsText hex gap (a :: as) := by
      apply trim_eq
      · rw [List.head?_append_of_ne_nil _ hn]
        exact hh
      · rw [List.getLast?_append_of_ne_nil _ (by simp), List.getLast?_cons_of_ne_nil an]
        exact al
    have m := (mapM_argsText hex gap (a :: as) (by simp) ha).1
    have x : (argsText hex gap (a :: as)).isEmpty = false := by simpa using an
    simp only [assembleLine, e, t, (take _).1, (take _).2, trim_space, trim_eq _ ah al, x, Bool.false_eq_true, if_false, m,
      Option.bind_some, String.ofList_toList]

end Sys2Proof.Machine
end

