-- ==== Sys2Proof/Laws/Decode.lean ====
section
/-! SUPPORT. The fields of a word and the word of its fields (`30_encoding.md` R71). -/

namespace Sys2Proof

/-- Fields put into a word are read back. -/
theorem Fields.ofWord_toWord (f : Fields) : Fields.ofWord f.toWord = f := by
  obtain ⟨opc, rsv, a, fr, f1, f0, v⟩ := f
  simp only [Fields.ofWord, Fields.toWord, Fields.mk.injEq]
  refine ⟨?_, ?_, ?_, ?_, ?_, ?_, ?_⟩
  case refine_5 => simp only [BitVec.getLsbD_append, BitVec.getLsbD_ofBool]; simp
  case refine_6 => simp only [BitVec.getLsbD_append, BitVec.getLsbD_ofBool]; simp
  case refine_7 =>
    apply BitVec.eq_of_getLsbD_eq
    intro i hi
    simp only [BitVec.getLsbD_extractLsb', BitVec.getLsbD_append, hi, decide_true, Bool.true_and]
    simp [hi]
  all_goals
    apply BitVec.eq_of_getLsbD_eq
    intro i hi
    simp only [BitVec.getLsbD_extractLsb', BitVec.getLsbD_append, hi, decide_true, Bool.true_and]
    interval_cases i <;> simp

/-- A word is what its fields make. -/
theorem Fields.toWord_ofWord (w : OpWord) : (Fields.ofWord w).toWord = w := by
  apply BitVec.eq_of_getLsbD_eq
  intro i hi
  simp only [Fields.ofWord, Fields.toWord, BitVec.getLsbD_extractLsb', BitVec.getLsbD_append]
  interval_cases i <;> simp

/-- Everything the decoder can answer: no row has the code; or one has it, and the bits it leaves unused decide. -/
theorem decodeFields_cases (f : Fields) :
    (rows.find? (fun r => r.opc == f.opc) = none ∧ decodeFields f = .error .unassigned) ∨
    ∃ r ∈ rows, r.opc = f.opc ∧
      ((r.reservedClear f = true ∧ decodeFields f = .ok (r.build f)) ∨
       (r.reservedClear f = false ∧ decodeFields f = .error .reserved)) := by
  rcases h : rows.find? (fun r => r.opc == f.opc) with _ | r
  · exact .inl ⟨h, by simp [decodeFields, h]⟩
  · have ho : r.opc = f.opc := by simpa using List.find?_some h
    refine .inr ⟨r, List.mem_of_find?_eq_some h, ho, ?_⟩
    rcases hc : r.reservedClear f with _ | _
    · exact .inr ⟨rfl, by simp [decodeFields, h, hc]⟩
    · exact .inl ⟨rfl, by simp [decodeFields, h, hc]⟩

/-- Two words with the same fields are one word. -/
theorem Fields.ofWord_inj {w x : OpWord} : Fields.ofWord w = Fields.ofWord x ↔ w = x :=
  ⟨fun h => by rw [← Fields.toWord_ofWord w, h, Fields.toWord_ofWord], fun h => by rw [h]⟩

/-- A mask acts field by field. -/
theorem Fields.ofWord_and (w m : OpWord) :
    Fields.ofWord (w &&& m) =
      { opc := (Fields.ofWord w).opc &&& (Fields.ofWord m).opc
        rsv := (Fields.ofWord w).rsv &&& (Fields.ofWord m).rsv
        a := (Fields.ofWord w).a &&& (Fields.ofWord m).a
        fr := (Fields.ofWord w).fr &&& (Fields.ofWord m).fr
        f1 := ((Fields.ofWord w).f1 && (Fields.ofWord m).f1)
        f0 := ((Fields.ofWord w).f0 && (Fields.ofWord m).f0)
        v := (Fields.ofWord w).v &&& (Fields.ofWord m).v } := by
  simp [Fields.ofWord, BitVec.extractLsb'_and]

/-- The encoder's word, decoded, is the operation's fields, decoded. -/
theorem decode_encode_fields (i : Instr) : decode (encode i) = decodeFields i.fields := by
  simp [decode, encode, Fields.ofWord_toWord]

theorem Coding.ofBit_toBit (m : Coding) : Coding.ofBit m.toBit = m := by cases m <;> rfl

theorem Coding.toBit_ofBit (b : Bool) : (Coding.ofBit b).toBit = b := by cases b <;> rfl

end Sys2Proof
end

