-- ==== Sys2Proof/Laws/State.lean ====
section
/-! SUPPORT. What each named update of the state does to each field, so that no later proof unfolds a record update. -/

namespace Sys2Proof.Machine

open Sys2Proof

/-! ### `State.emit` -/

@[simp] theorem State.emit_cfg (s : State) (e : PinEvent) : (s.emit e).cfg = s.cfg := rfl
@[simp] theorem State.emit_pwr (s : State) (e : PinEvent) : (s.emit e).pwr = s.pwr := rfl
@[simp] theorem State.emit_brt (s : State) (e : PinEvent) : (s.emit e).brt = s.brt := rfl
@[simp] theorem State.emit_cod (s : State) (e : PinEvent) : (s.emit e).cod = s.cod := rfl
@[simp] theorem State.emit_clkLvl (s : State) (e : PinEvent) : (s.emit e).clkLvl = s.clkLvl := rfl
@[simp] theorem State.emit_clkDir (s : State) (e : PinEvent) : (s.emit e).clkDir = s.clkDir := rfl
@[simp] theorem State.emit_dioLvl (s : State) (e : PinEvent) : (s.emit e).dioLvl = s.dioLvl := rfl
@[simp] theorem State.emit_dioDir (s : State) (e : PinEvent) : (s.emit e).dioDir = s.dioDir := rfl
@[simp] theorem State.emit_frame (s : State) (e : PinEvent) : (s.emit e).frame = s.frame := rfl
@[simp] theorem State.emit_life (s : State) (e : PinEvent) : (s.emit e).life = s.life := rfl
@[simp] theorem State.emit_trace (s : State) (e : PinEvent) : (s.emit e).trace = s.trace ++ [e] := rfl
@[simp] theorem State.emit_built (s : State) (e : PinEvent) : (s.emit e).built = s.built := rfl
@[simp] theorem State.emit_inputs (s : State) (e : PinEvent) : (s.emit e).inputs = s.inputs := rfl
@[simp] theorem State.emit_results (s : State) (e : PinEvent) : (s.emit e).results = s.results := rfl
@[simp] theorem State.emit_draws (s : State) (e : PinEvent) : (s.emit e).draws = s.draws := rfl
@[simp] theorem State.emit_drawn (s : State) (e : PinEvent) : (s.emit e).drawn = s.drawn := rfl

/-! ### `State.setFrame` -/

@[simp] theorem State.setFrame_cfg (s : State) (f : Frame) : (s.setFrame f).cfg = s.cfg := rfl
@[simp] theorem State.setFrame_pwr (s : State) (f : Frame) : (s.setFrame f).pwr = s.pwr := rfl
@[simp] theorem State.setFrame_brt (s : State) (f : Frame) : (s.setFrame f).brt = s.brt := rfl
@[simp] theorem State.setFrame_cod (s : State) (f : Frame) : (s.setFrame f).cod = s.cod := rfl
@[simp] theorem State.setFrame_clkLvl (s : State) (f : Frame) : (s.setFrame f).clkLvl = s.clkLvl := rfl
@[simp] theorem State.setFrame_clkDir (s : State) (f : Frame) : (s.setFrame f).clkDir = s.clkDir := rfl
@[simp] theorem State.setFrame_dioLvl (s : State) (f : Frame) : (s.setFrame f).dioLvl = s.dioLvl := rfl
@[simp] theorem State.setFrame_dioDir (s : State) (f : Frame) : (s.setFrame f).dioDir = s.dioDir := rfl
@[simp] theorem State.setFrame_frame (s : State) (f : Frame) : (s.setFrame f).frame = f := rfl
@[simp] theorem State.setFrame_life (s : State) (f : Frame) : (s.setFrame f).life = s.life := rfl
@[simp] theorem State.setFrame_trace (s : State) (f : Frame) : (s.setFrame f).trace = s.trace := rfl
@[simp] theorem State.setFrame_built (s : State) (f : Frame) : (s.setFrame f).built = s.built := rfl
@[simp] theorem State.setFrame_inputs (s : State) (f : Frame) : (s.setFrame f).inputs = s.inputs := rfl
@[simp] theorem State.setFrame_results (s : State) (f : Frame) : (s.setFrame f).results = s.results := rfl
@[simp] theorem State.setFrame_draws (s : State) (f : Frame) : (s.setFrame f).draws = s.draws := rfl
@[simp] theorem State.setFrame_drawn (s : State) (f : Frame) : (s.setFrame f).drawn = s.drawn := rfl

/-! ### `State.setPwr` -/

@[simp] theorem State.setPwr_cfg (s : State) (on : Bool) : (s.setPwr on).cfg = s.cfg := rfl
@[simp] theorem State.setPwr_pwr (s : State) (on : Bool) : (s.setPwr on).pwr = on := rfl
@[simp] theorem State.setPwr_brt (s : State) (on : Bool) : (s.setPwr on).brt = s.brt := rfl
@[simp] theorem State.setPwr_cod (s : State) (on : Bool) : (s.setPwr on).cod = s.cod := rfl
@[simp] theorem State.setPwr_clkLvl (s : State) (on : Bool) : (s.setPwr on).clkLvl = s.clkLvl := rfl
@[simp] theorem State.setPwr_clkDir (s : State) (on : Bool) : (s.setPwr on).clkDir = s.clkDir := rfl
@[simp] theorem State.setPwr_dioLvl (s : State) (on : Bool) : (s.setPwr on).dioLvl = s.dioLvl := rfl
@[simp] theorem State.setPwr_dioDir (s : State) (on : Bool) : (s.setPwr on).dioDir = s.dioDir := rfl
@[simp] theorem State.setPwr_frame (s : State) (on : Bool) : (s.setPwr on).frame = s.frame := rfl
@[simp] theorem State.setPwr_life (s : State) (on : Bool) : (s.setPwr on).life = s.life := rfl
@[simp] theorem State.setPwr_trace (s : State) (on : Bool) : (s.setPwr on).trace = s.trace := rfl
@[simp] theorem State.setPwr_built (s : State) (on : Bool) : (s.setPwr on).built = s.built := rfl
@[simp] theorem State.setPwr_inputs (s : State) (on : Bool) : (s.setPwr on).inputs = s.inputs := rfl
@[simp] theorem State.setPwr_results (s : State) (on : Bool) : (s.setPwr on).results = s.results := rfl
@[simp] theorem State.setPwr_draws (s : State) (on : Bool) : (s.setPwr on).draws = s.draws := rfl
@[simp] theorem State.setPwr_drawn (s : State) (on : Bool) : (s.setPwr on).drawn = s.drawn := rfl

/-! ### `State.setBrt` -/

@[simp] theorem State.setBrt_cfg (s : State) (x : BitVec 3) : (s.setBrt x).cfg = s.cfg := rfl
@[simp] theorem State.setBrt_pwr (s : State) (x : BitVec 3) : (s.setBrt x).pwr = s.pwr := rfl
@[simp] theorem State.setBrt_brt (s : State) (x : BitVec 3) : (s.setBrt x).brt = x := rfl
@[simp] theorem State.setBrt_cod (s : State) (x : BitVec 3) : (s.setBrt x).cod = s.cod := rfl
@[simp] theorem State.setBrt_clkLvl (s : State) (x : BitVec 3) : (s.setBrt x).clkLvl = s.clkLvl := rfl
@[simp] theorem State.setBrt_clkDir (s : State) (x : BitVec 3) : (s.setBrt x).clkDir = s.clkDir := rfl
@[simp] theorem State.setBrt_dioLvl (s : State) (x : BitVec 3) : (s.setBrt x).dioLvl = s.dioLvl := rfl
@[simp] theorem State.setBrt_dioDir (s : State) (x : BitVec 3) : (s.setBrt x).dioDir = s.dioDir := rfl
@[simp] theorem State.setBrt_frame (s : State) (x : BitVec 3) : (s.setBrt x).frame = s.frame := rfl
@[simp] theorem State.setBrt_life (s : State) (x : BitVec 3) : (s.setBrt x).life = s.life := rfl
@[simp] theorem State.setBrt_trace (s : State) (x : BitVec 3) : (s.setBrt x).trace = s.trace := rfl
@[simp] theorem State.setBrt_built (s : State) (x : BitVec 3) : (s.setBrt x).built = s.built := rfl
@[simp] theorem State.setBrt_inputs (s : State) (x : BitVec 3) : (s.setBrt x).inputs = s.inputs := rfl
@[simp] theorem State.setBrt_results (s : State) (x : BitVec 3) : (s.setBrt x).results = s.results := rfl
@[simp] theorem State.setBrt_draws (s : State) (x : BitVec 3) : (s.setBrt x).draws = s.draws := rfl
@[simp] theorem State.setBrt_drawn (s : State) (x : BitVec 3) : (s.setBrt x).drawn = s.drawn := rfl

/-! ### `State.setCod` -/

@[simp] theorem State.setCod_cfg (s : State) (m : Coding) : (s.setCod m).cfg = s.cfg := rfl
@[simp] theorem State.setCod_pwr (s : State) (m : Coding) : (s.setCod m).pwr = s.pwr := rfl
@[simp] theorem State.setCod_brt (s : State) (m : Coding) : (s.setCod m).brt = s.brt := rfl
@[simp] theorem State.setCod_cod (s : State) (m : Coding) : (s.setCod m).cod = m := rfl
@[simp] theorem State.setCod_clkLvl (s : State) (m : Coding) : (s.setCod m).clkLvl = s.clkLvl := rfl
@[simp] theorem State.setCod_clkDir (s : State) (m : Coding) : (s.setCod m).clkDir = s.clkDir := rfl
@[simp] theorem State.setCod_dioLvl (s : State) (m : Coding) : (s.setCod m).dioLvl = s.dioLvl := rfl
@[simp] theorem State.setCod_dioDir (s : State) (m : Coding) : (s.setCod m).dioDir = s.dioDir := rfl
@[simp] theorem State.setCod_frame (s : State) (m : Coding) : (s.setCod m).frame = s.frame := rfl
@[simp] theorem State.setCod_life (s : State) (m : Coding) : (s.setCod m).life = s.life := rfl
@[simp] theorem State.setCod_trace (s : State) (m : Coding) : (s.setCod m).trace = s.trace := rfl
@[simp] theorem State.setCod_built (s : State) (m : Coding) : (s.setCod m).built = s.built := rfl
@[simp] theorem State.setCod_inputs (s : State) (m : Coding) : (s.setCod m).inputs = s.inputs := rfl
@[simp] theorem State.setCod_results (s : State) (m : Coding) : (s.setCod m).results = s.results := rfl
@[simp] theorem State.setCod_draws (s : State) (m : Coding) : (s.setCod m).draws = s.draws := rfl
@[simp] theorem State.setCod_drawn (s : State) (m : Coding) : (s.setCod m).drawn = s.drawn := rfl

/-! ### `State.setLife` -/

@[simp] theorem State.setLife_cfg (s : State) (l : Life) : (s.setLife l).cfg = s.cfg := rfl
@[simp] theorem State.setLife_pwr (s : State) (l : Life) : (s.setLife l).pwr = s.pwr := rfl
@[simp] theorem State.setLife_brt (s : State) (l : Life) : (s.setLife l).brt = s.brt := rfl
@[simp] theorem State.setLife_cod (s : State) (l : Life) : (s.setLife l).cod = s.cod := rfl
@[simp] theorem State.setLife_clkLvl (s : State) (l : Life) : (s.setLife l).clkLvl = s.clkLvl := rfl
@[simp] theorem State.setLife_clkDir (s : State) (l : Life) : (s.setLife l).clkDir = s.clkDir := rfl
@[simp] theorem State.setLife_dioLvl (s : State) (l : Life) : (s.setLife l).dioLvl = s.dioLvl := rfl
@[simp] theorem State.setLife_dioDir (s : State) (l : Life) : (s.setLife l).dioDir = s.dioDir := rfl
@[simp] theorem State.setLife_frame (s : State) (l : Life) : (s.setLife l).frame = s.frame := rfl
@[simp] theorem State.setLife_life (s : State) (l : Life) : (s.setLife l).life = l := rfl
@[simp] theorem State.setLife_trace (s : State) (l : Life) : (s.setLife l).trace = s.trace := rfl
@[simp] theorem State.setLife_built (s : State) (l : Life) : (s.setLife l).built = s.built := rfl
@[simp] theorem State.setLife_inputs (s : State) (l : Life) : (s.setLife l).inputs = s.inputs := rfl
@[simp] theorem State.setLife_results (s : State) (l : Life) : (s.setLife l).results = s.results := rfl
@[simp] theorem State.setLife_draws (s : State) (l : Life) : (s.setLife l).draws = s.draws := rfl
@[simp] theorem State.setLife_drawn (s : State) (l : Life) : (s.setLife l).drawn = s.drawn := rfl

/-! ### `State.respond` -/

@[simp] theorem State.respond_cfg (s : State) (w : ResultWord) : (s.respond w).cfg = s.cfg := rfl
@[simp] theorem State.respond_pwr (s : State) (w : ResultWord) : (s.respond w).pwr = s.pwr := rfl
@[simp] theorem State.respond_brt (s : State) (w : ResultWord) : (s.respond w).brt = s.brt := rfl
@[simp] theorem State.respond_cod (s : State) (w : ResultWord) : (s.respond w).cod = s.cod := rfl
@[simp] theorem State.respond_clkLvl (s : State) (w : ResultWord) : (s.respond w).clkLvl = s.clkLvl := rfl
@[simp] theorem State.respond_clkDir (s : State) (w : ResultWord) : (s.respond w).clkDir = s.clkDir := rfl
@[simp] theorem State.respond_dioLvl (s : State) (w : ResultWord) : (s.respond w).dioLvl = s.dioLvl := rfl
@[simp] theorem State.respond_dioDir (s : State) (w : ResultWord) : (s.respond w).dioDir = s.dioDir := rfl
@[simp] theorem State.respond_frame (s : State) (w : ResultWord) : (s.respond w).frame = s.frame := rfl
@[simp] theorem State.respond_life (s : State) (w : ResultWord) : (s.respond w).life = s.life := rfl
@[simp] theorem State.respond_trace (s : State) (w : ResultWord) : (s.respond w).trace = s.trace := rfl
@[simp] theorem State.respond_built (s : State) (w : ResultWord) : (s.respond w).built = s.built := rfl
@[simp] theorem State.respond_inputs (s : State) (w : ResultWord) : (s.respond w).inputs = s.inputs := rfl
@[simp] theorem State.respond_results (s : State) (w : ResultWord) : (s.respond w).results = s.results ++ [w] := rfl
@[simp] theorem State.respond_draws (s : State) (w : ResultWord) : (s.respond w).draws = s.draws := rfl
@[simp] theorem State.respond_drawn (s : State) (w : ResultWord) : (s.respond w).drawn = s.drawn := rfl

/-! ### `State.dropDraw` -/

@[simp] theorem State.dropDraw_cfg (s : State) : (s.dropDraw).cfg = s.cfg := rfl
@[simp] theorem State.dropDraw_pwr (s : State) : (s.dropDraw).pwr = s.pwr := rfl
@[simp] theorem State.dropDraw_brt (s : State) : (s.dropDraw).brt = s.brt := rfl
@[simp] theorem State.dropDraw_cod (s : State) : (s.dropDraw).cod = s.cod := rfl
@[simp] theorem State.dropDraw_clkLvl (s : State) : (s.dropDraw).clkLvl = s.clkLvl := rfl
@[simp] theorem State.dropDraw_clkDir (s : State) : (s.dropDraw).clkDir = s.clkDir := rfl
@[simp] theorem State.dropDraw_dioLvl (s : State) : (s.dropDraw).dioLvl = s.dioLvl := rfl
@[simp] theorem State.dropDraw_dioDir (s : State) : (s.dropDraw).dioDir = s.dioDir := rfl
@[simp] theorem State.dropDraw_frame (s : State) : (s.dropDraw).frame = s.frame := rfl
@[simp] theorem State.dropDraw_life (s : State) : (s.dropDraw).life = s.life := rfl
@[simp] theorem State.dropDraw_trace (s : State) : (s.dropDraw).trace = s.trace := rfl
@[simp] theorem State.dropDraw_built (s : State) : (s.dropDraw).built = s.built := rfl
@[simp] theorem State.dropDraw_inputs (s : State) : (s.dropDraw).inputs = s.inputs := rfl
@[simp] theorem State.dropDraw_results (s : State) : (s.dropDraw).results = s.results := rfl
@[simp] theorem State.dropDraw_draws (s : State) : (s.dropDraw).draws = s.draws.tail := rfl
@[simp] theorem State.dropDraw_drawn (s : State) : (s.dropDraw).drawn = s.drawn + 1 := rfl

/-! ### `setLevel .clk` -/

@[simp] theorem setLevel_clk_cfg (s : State) (l : Level) : (setLevel .clk l s).cfg = s.cfg := rfl
@[simp] theorem setLevel_clk_pwr (s : State) (l : Level) : (setLevel .clk l s).pwr = s.pwr := rfl
@[simp] theorem setLevel_clk_brt (s : State) (l : Level) : (setLevel .clk l s).brt = s.brt := rfl
@[simp] theorem setLevel_clk_cod (s : State) (l : Level) : (setLevel .clk l s).cod = s.cod := rfl
@[simp] theorem setLevel_clk_clkLvl (s : State) (l : Level) : (setLevel .clk l s).clkLvl = l := rfl
@[simp] theorem setLevel_clk_clkDir (s : State) (l : Level) : (setLevel .clk l s).clkDir = s.clkDir := rfl
@[simp] theorem setLevel_clk_dioLvl (s : State) (l : Level) : (setLevel .clk l s).dioLvl = s.dioLvl := rfl
@[simp] theorem setLevel_clk_dioDir (s : State) (l : Level) : (setLevel .clk l s).dioDir = s.dioDir := rfl
@[simp] theorem setLevel_clk_frame (s : State) (l : Level) : (setLevel .clk l s).frame = s.frame := rfl
@[simp] theorem setLevel_clk_life (s : State) (l : Level) : (setLevel .clk l s).life = s.life := rfl
@[simp] theorem setLevel_clk_trace (s : State) (l : Level) : (setLevel .clk l s).trace = s.trace ++ [.lvl .clk l] := rfl
@[simp] theorem setLevel_clk_built (s : State) (l : Level) : (setLevel .clk l s).built = s.built := rfl
@[simp] theorem setLevel_clk_inputs (s : State) (l : Level) : (setLevel .clk l s).inputs = s.inputs := rfl
@[simp] theorem setLevel_clk_results (s : State) (l : Level) : (setLevel .clk l s).results = s.results := rfl
@[simp] theorem setLevel_clk_draws (s : State) (l : Level) : (setLevel .clk l s).draws = s.draws := rfl
@[simp] theorem setLevel_clk_drawn (s : State) (l : Level) : (setLevel .clk l s).drawn = s.drawn := rfl

/-! ### `setLevel .dio` -/

@[simp] theorem setLevel_dio_cfg (s : State) (l : Level) : (setLevel .dio l s).cfg = s.cfg := rfl
@[simp] theorem setLevel_dio_pwr (s : State) (l : Level) : (setLevel .dio l s).pwr = s.pwr := rfl
@[simp] theorem setLevel_dio_brt (s : State) (l : Level) : (setLevel .dio l s).brt = s.brt := rfl
@[simp] theorem setLevel_dio_cod (s : State) (l : Level) : (setLevel .dio l s).cod = s.cod := rfl
@[simp] theorem setLevel_dio_clkLvl (s : State) (l : Level) : (setLevel .dio l s).clkLvl = s.clkLvl := rfl
@[simp] theorem setLevel_dio_clkDir (s : State) (l : Level) : (setLevel .dio l s).clkDir = s.clkDir := rfl
@[simp] theorem setLevel_dio_dioLvl (s : State) (l : Level) : (setLevel .dio l s).dioLvl = l := rfl
@[simp] theorem setLevel_dio_dioDir (s : State) (l : Level) : (setLevel .dio l s).dioDir = s.dioDir := rfl
@[simp] theorem setLevel_dio_frame (s : State) (l : Level) : (setLevel .dio l s).frame = s.frame := rfl
@[simp] theorem setLevel_dio_life (s : State) (l : Level) : (setLevel .dio l s).life = s.life := rfl
@[simp] theorem setLevel_dio_trace (s : State) (l : Level) : (setLevel .dio l s).trace = s.trace ++ [.lvl .dio l] := rfl
@[simp] theorem setLevel_dio_built (s : State) (l : Level) : (setLevel .dio l s).built = s.built := rfl
@[simp] theorem setLevel_dio_inputs (s : State) (l : Level) : (setLevel .dio l s).inputs = s.inputs := rfl
@[simp] theorem setLevel_dio_results (s : State) (l : Level) : (setLevel .dio l s).results = s.results := rfl
@[simp] theorem setLevel_dio_draws (s : State) (l : Level) : (setLevel .dio l s).draws = s.draws := rfl
@[simp] theorem setLevel_dio_drawn (s : State) (l : Level) : (setLevel .dio l s).drawn = s.drawn := rfl

/-! ### `setDir .clk` -/

@[simp] theorem setDir_clk_cfg (s : State) (d : Direction) : (setDir .clk d s).cfg = s.cfg := rfl
@[simp] theorem setDir_clk_pwr (s : State) (d : Direction) : (setDir .clk d s).pwr = s.pwr := rfl
@[simp] theorem setDir_clk_brt (s : State) (d : Direction) : (setDir .clk d s).brt = s.brt := rfl
@[simp] theorem setDir_clk_cod (s : State) (d : Direction) : (setDir .clk d s).cod = s.cod := rfl
@[simp] theorem setDir_clk_clkLvl (s : State) (d : Direction) : (setDir .clk d s).clkLvl = s.clkLvl := rfl
@[simp] theorem setDir_clk_clkDir (s : State) (d : Direction) : (setDir .clk d s).clkDir = d := rfl
@[simp] theorem setDir_clk_dioLvl (s : State) (d : Direction) : (setDir .clk d s).dioLvl = s.dioLvl := rfl
@[simp] theorem setDir_clk_dioDir (s : State) (d : Direction) : (setDir .clk d s).dioDir = s.dioDir := rfl
@[simp] theorem setDir_clk_frame (s : State) (d : Direction) : (setDir .clk d s).frame = s.frame := rfl
@[simp] theorem setDir_clk_life (s : State) (d : Direction) : (setDir .clk d s).life = s.life := rfl
@[simp] theorem setDir_clk_trace (s : State) (d : Direction) : (setDir .clk d s).trace = s.trace ++ [.dir .clk d] := rfl
@[simp] theorem setDir_clk_built (s : State) (d : Direction) : (setDir .clk d s).built = s.built := rfl
@[simp] theorem setDir_clk_inputs (s : State) (d : Direction) : (setDir .clk d s).inputs = s.inputs := rfl
@[simp] theorem setDir_clk_results (s : State) (d : Direction) : (setDir .clk d s).results = s.results := rfl
@[simp] theorem setDir_clk_draws (s : State) (d : Direction) : (setDir .clk d s).draws = s.draws := rfl
@[simp] theorem setDir_clk_drawn (s : State) (d : Direction) : (setDir .clk d s).drawn = s.drawn := rfl

/-! ### `setDir .dio` -/

@[simp] theorem setDir_dio_cfg (s : State) (d : Direction) : (setDir .dio d s).cfg = s.cfg := rfl
@[simp] theorem setDir_dio_pwr (s : State) (d : Direction) : (setDir .dio d s).pwr = s.pwr := rfl
@[simp] theorem setDir_dio_brt (s : State) (d : Direction) : (setDir .dio d s).brt = s.brt := rfl
@[simp] theorem setDir_dio_cod (s : State) (d : Direction) : (setDir .dio d s).cod = s.cod := rfl
@[simp] theorem setDir_dio_clkLvl (s : State) (d : Direction) : (setDir .dio d s).clkLvl = s.clkLvl := rfl
@[simp] theorem setDir_dio_clkDir (s : State) (d : Direction) : (setDir .dio d s).clkDir = s.clkDir := rfl
@[simp] theorem setDir_dio_dioLvl (s : State) (d : Direction) : (setDir .dio d s).dioLvl = s.dioLvl := rfl
@[simp] theorem setDir_dio_dioDir (s : State) (d : Direction) : (setDir .dio d s).dioDir = d := rfl
@[simp] theorem setDir_dio_frame (s : State) (d : Direction) : (setDir .dio d s).frame = s.frame := rfl
@[simp] theorem setDir_dio_life (s : State) (d : Direction) : (setDir .dio d s).life = s.life := rfl
@[simp] theorem setDir_dio_trace (s : State) (d : Direction) : (setDir .dio d s).trace = s.trace ++ [.dir .dio d] := rfl
@[simp] theorem setDir_dio_built (s : State) (d : Direction) : (setDir .dio d s).built = s.built := rfl
@[simp] theorem setDir_dio_inputs (s : State) (d : Direction) : (setDir .dio d s).inputs = s.inputs := rfl
@[simp] theorem setDir_dio_results (s : State) (d : Direction) : (setDir .dio d s).results = s.results := rfl
@[simp] theorem setDir_dio_draws (s : State) (d : Direction) : (setDir .dio d s).draws = s.draws := rfl
@[simp] theorem setDir_dio_drawn (s : State) (d : Direction) : (setDir .dio d s).drawn = s.drawn := rfl

end Sys2Proof.Machine
end

