-- ==== Sys2Proof/Laws/Ops.lean ====
section
/-! SUPPORT. What each shared operation does, said once and in full, in the frame notation of Wire.lean. The provers cite these and
unfold nothing of Ops.lean. -/

namespace Sys2Proof.Machine

open Sys2Proof

/-! ### Samples -/

/-- Samples taken move the numbering of the coming ones. -/
theorem levelAt_of_dropped {s t : State} {n : Nat} (hd : t.draws = s.draws.drop n) (hn : t.drawn = s.drawn + n) (k : Nat) :
    t.levelAt k = s.levelAt (n + k) := by
  simp [State.levelAt, hd, hn, List.getD_eq_getElem?_getD, List.getElem?_drop, Nat.add_assoc]

/-! ### Runs of items -/

theorem wireEvents_append (a b : List Slot) : wireEvents (a ++ b) = wireEvents a ++ wireEvents b := by
  simp [wireEvents]

theorem wireEvents_cons (x : Slot) (a : List Slot) : wireEvents (x :: a) = x.events ++ wireEvents a := by
  simp [wireEvents]

theorem byteCount_append (a b : List Slot) : byteCount (a ++ b) = byteCount a + byteCount b := by
  induction a with
  | nil => simp [byteCount]
  | cons x a ih =>
    cases x <;> simp only [List.cons_append, byteCount, ih]
    omega

theorem frameAfter_append (f : Frame) (a b : List Slot) : frameAfter f (a ++ b) = frameAfter (frameAfter f a) b := by
  induction a generalizing f with
  | nil => simp [frameAfter]
  | cons x a ih => cases x <;> simp [frameAfter, ih]

theorem byteCount_bytesFrom (s : State) (k : Nat) (bs : List Byte) : byteCount (bytesFrom s k bs) = bs.length := by
  induction bs generalizing k with
  | nil => rfl
  | cons b bs ih => simp [bytesFrom, byteCount, ih]

theorem frameAfter_bytesFrom (s : State) (k : Nat) (bs : List Byte) (f : Frame) :
    frameAfter f (bytesFrom s k bs) = f := by
  induction bs generalizing k with
  | nil => rfl
  | cons b bs ih => simp [bytesFrom, frameAfter, ih]

theorem byteCount_writeSlots (s : State) (k : Nat) (p : Byte) (bs : List Byte) :
    byteCount (writeSlots s k p bs) = bs.length + 2 := by
  simp [writeSlots, beginSlots, byteCount_append, byteCount, byteCount_bytesFrom]

theorem byteCount_writesSlots (s : State) (k : Nat) (ws : List (Nat × Byte)) :
    byteCount (writesSlots s k ws) = 3 * ws.length := by
  induction ws generalizing k with
  | nil => rfl
  | cons w ws ih => simp [writesSlots, byteCount_append, byteCount_writeSlots, ih]; omega

/-- The slots of a state are numbered on from the samples already taken. -/
theorem bytesFrom_of_dropped {s t : State} {n : Nat} (hd : t.draws = s.draws.drop n) (hn : t.drawn = s.drawn + n) (k : Nat)
    (bs : List Byte) : bytesFrom t k bs = bytesFrom s (n + k) bs := by
  induction bs generalizing k with
  | nil => rfl
  | cons b bs ih => simp [bytesFrom, levelAt_of_dropped hd hn, ih, Nat.add_assoc]

theorem writeSlots_of_dropped {s t : State} {n : Nat} (hd : t.draws = s.draws.drop n) (hn : t.drawn = s.drawn + n)
    (hc : t.cfg = s.cfg) (k : Nat) (p : Byte) (bs : List Byte) : writeSlots t k p bs = writeSlots s (n + k) p bs := by
  simp [writeSlots, beginSlots, levelAt_of_dropped hd hn, bytesFrom_of_dropped hd hn, hc, Nat.add_assoc]

theorem writesSlots_of_dropped {s t : State} {n : Nat} (hd : t.draws = s.draws.drop n) (hn : t.drawn = s.drawn + n)
    (hc : t.cfg = s.cfg) (k : Nat) (ws : List (Nat × Byte)) : writesSlots t k ws = writesSlots s (n + k) ws := by
  induction ws generalizing k with
  | nil => rfl
  | cons w ws ih => simp [writesSlots, writeSlots_of_dropped hd hn hc, ih, Nat.add_assoc]

/-! ### The transmitter -/

/-- Eight bit slots: the events of R82, and the latches they leave. -/
theorem txBits_eq (b : Byte) (s : State) :
    txBits b s =
      { s with
        trace := s.trace ++ (bitSlot (b.getLsbD 0) ++ bitSlot (b.getLsbD 1) ++ bitSlot (b.getLsbD 2) ++
          bitSlot (b.getLsbD 3) ++ bitSlot (b.getLsbD 4) ++ bitSlot (b.getLsbD 5) ++ bitSlot (b.getLsbD 6) ++
          bitSlot (b.getLsbD 7))
        clkLvl := .high
        dioLvl := bitLevel (b.getLsbD 7) } := by
  simp [txBits, txBit, setLevel, State.emit, bitSlot]

/-- The acknowledgement slot: the events of R83, one sample, and the latches it leaves. -/
theorem txAck_eq (s : State) :
    txAck s =
      ({ s with
        trace := s.trace ++ ackSlot (s.levelAt 0)
        draws := s.draws.drop 1
        drawn := s.drawn + 1
        clkLvl := .low
        dioLvl := .high
        dioDir := .output }, ackOf (s.levelAt 0)) := by
  simp [txAck, setLevel, setDir, readLevel, State.emit, State.dropDraw, State.levelAt, ackSlot]

/-- R100 in full. -/
theorem tx_eq (b : Byte) (s : State) :
    tx b s = (s.afterBytes [.byte b (s.levelAt 0)], ackOf (s.levelAt 0)) := by
  simp [tx, txBits_eq, txAck_eq, State.afterBytes, wireEvents, Slot.events, byteSlot, byteCount, frameAfter,
    State.levelAt]

/-! ### The framer -/

/-- R120 in full. -/
theorem startCond_eq (s : State) :
    startCond s =
      { s with trace := s.trace ++ wireEvents [.start], clkLvl := .high, dioLvl := .low, frame := .opened } := by
  simp [startCond, setLevel, State.emit, State.setFrame, wireEvents, Slot.events]

/-- R121 in full. -/
theorem stopCond_eq (s : State) :
    stopCond s =
      { s with trace := s.trace ++ wireEvents [.stop], clkLvl := .high, dioLvl := .high, frame := .idle } := by
  simp [stopCond, setLevel, State.emit, State.setFrame, wireEvents, Slot.events]

theorem stopCond_afterBytes (s : State) (items : List Slot) :
    stopCond (s.afterBytes items) = s.afterFrames (items ++ [.stop]) := by
  simp [stopCond_eq, State.afterFrames, State.afterBytes, wireEvents_append, byteCount_append, byteCount,
    frameAfter_append, frameAfter]

/-- R123 in full, without a STOP. -/
theorem data_open (b : Byte) (s : State) :
    data b false s = (s.afterBytes [.byte b (s.levelAt 0)], ackOf (s.levelAt 0)) := by
  simp [data, tx_eq, stopIf]

/-- R123 in full, with a STOP. -/
theorem data_stop (b : Byte) (s : State) :
    data b true s = (s.afterFrames [.byte b (s.levelAt 0), .stop], ackOf (s.levelAt 0)) := by
  simp [data, tx_eq, stopIf, stopCond_afterBytes]

theorem tx_startCond (b : Byte) (s : State) :
    tx b (startCond s) = (s.afterBytes [.start, .byte b (s.levelAt 0)], ackOf (s.levelAt 0)) := by
  simp [tx_eq, startCond_eq, State.afterBytes, wireEvents, byteCount, frameAfter, State.levelAt]

/-- R122 in full, without a STOP. -/
theorem cmd_open (b : Byte) (s : State) :
    cmd b false s = (s.afterBytes [.start, .byte b (s.levelAt 0)], ackOf (s.levelAt 0)) := by
  simp [cmd, tx_startCond, stopIf]

/-- R122 in full, with a STOP. -/
theorem cmd_stop (b : Byte) (s : State) :
    cmd b true s = (s.afterFrames [.start, .byte b (s.levelAt 0), .stop], ackOf (s.levelAt 0)) := by
  simp [cmd, tx_startCond, stopIf, stopCond_afterBytes]

/-! ### Runs one after another -/

theorem afterBytes_afterBytes (s : State) (a b : List Slot) :
    (s.afterBytes a).afterBytes b = s.afterBytes (a ++ b) := by
  simp [State.afterBytes, wireEvents_append, byteCount_append, frameAfter_append, Nat.add_assoc]

theorem afterBytes_afterFrames (s : State) (a b : List Slot) :
    (s.afterBytes a).afterFrames b = s.afterFrames (a ++ b) := by
  simp [State.afterFrames, afterBytes_afterBytes]

theorem afterFrames_afterFrames (s : State) (a b : List Slot) :
    (s.afterFrames a).afterFrames b = s.afterFrames (a ++ b) := by
  simp [State.afterFrames, State.afterBytes, wireEvents_append, byteCount_append, Nat.add_assoc]

@[simp] theorem afterBytes_draws (s : State) (a : List Slot) : (s.afterBytes a).draws = s.draws.drop (byteCount a) := rfl
@[simp] theorem afterBytes_drawn (s : State) (a : List Slot) : (s.afterBytes a).drawn = s.drawn + byteCount a := rfl
@[simp] theorem afterBytes_cfg (s : State) (a : List Slot) : (s.afterBytes a).cfg = s.cfg := rfl
@[simp] theorem afterFrames_draws (s : State) (a : List Slot) : (s.afterFrames a).draws = s.draws.drop (byteCount a) := rfl
@[simp] theorem afterFrames_drawn (s : State) (a : List Slot) : (s.afterFrames a).drawn = s.drawn + byteCount a := rfl
@[simp] theorem afterFrames_cfg (s : State) (a : List Slot) : (s.afterFrames a).cfg = s.cfg := rfl
@[simp] theorem afterFrames_pwr (s : State) (a : List Slot) : (s.afterFrames a).pwr = s.pwr := rfl

theorem levelAt_afterBytes (s : State) (a : List Slot) (k : Nat) :
    (s.afterBytes a).levelAt k = s.levelAt (byteCount a + k) := levelAt_of_dropped rfl rfl k

theorem levelAt_afterFrames (s : State) (a : List Slot) (k : Nat) :
    (s.afterFrames a).levelAt k = s.levelAt (byteCount a + k) := levelAt_of_dropped rfl rfl k

/-! ### The sequences -/

/-- R124 in full. -/
theorem beginAt_eq (p : Byte) (s : State) :
    beginAt p s = (s.afterBytes (beginSlots s 0 p), ackOf (s.levelAt 1)) := by
  simp [beginAt, cmd_open, levelAt_afterBytes, afterBytes_afterBytes, byteCount, beginSlots]

/-- R130: a stream of at least one byte is its byte slots and one STOP. -/
theorem stream_eq (bs : List Byte) (hb : bs ≠ []) (s : State) :
    stream bs s = s.afterFrames (bytesFrom s 0 bs ++ [.stop]) := by
  induction bs generalizing s with
  | nil => exact absurd rfl hb
  | cons b bs ih =>
    cases bs with
    | nil => simp [stream, data_stop, bytesFrom]
    | cons c cs =>
      rw [stream, data_open, ih (by simp), afterBytes_afterFrames,
        bytesFrom_of_dropped (s := s) (n := 1) (by simp [byteCount]) (by simp [byteCount])]
      · simp [bytesFrom]
      · simp

/-- R124 and R130: a stream in a frame opened at a position. -/
theorem stream_beginAt (p : Byte) (bs : List Byte) (hb : bs ≠ []) (s : State) :
    stream bs (beginAt p s).1 = s.afterFrames (writeSlots s 0 p bs) := by
  rw [beginAt_eq, stream_eq bs hb, afterBytes_afterFrames,
    bytesFrom_of_dropped (s := s) (n := 2) (by simp [byteCount, beginSlots]) (by simp [byteCount, beginSlots])]
  simp [writeSlots]

/-- R140 in full. -/
theorem write1_eq (p b : Byte) (s : State) : write1 p b s = s.afterFrames (writeSlots s 0 p [b]) :=
  stream_beginAt p [b] (by simp) s

/-- R141 in full. -/
theorem fill6_eq (b : Byte) (s : State) : fill6 b s = s.afterFrames (writeSlots s 0 1#8 [b, b, b, b, b, b]) := by
  have h : List.replicate nposPhys b = [b, b, b, b, b, b] := rfl
  rw [fill6, h]
  exact stream_beginAt 1#8 _ (by simp) s

/-- R145: the frames of a list of writes. -/
theorem writeAll_eq (ws : List (Nat × Byte)) (hw : ws ≠ []) (s : State) :
    writeAll ws s = s.afterFrames (writesSlots s 0 ws) := by
  induction ws generalizing s with
  | nil => exact absurd rfl hw
  | cons w ws ih =>
    cases ws with
    | nil => simp [writeAll, write1_eq, writesSlots]
    | cons x xs =>
      have h : writeAll (w :: x :: xs) s = writeAll (x :: xs) (write1 (BitVec.ofNat 8 w.1) w.2 s) := by
        simp only [writeAll, List.foldl_cons]
      rw [h, ih (by simp), write1_eq, afterFrames_afterFrames]
      have hs := writesSlots_of_dropped (s := s) (t := s.afterFrames (writeSlots s 0 (BitVec.ofNat 8 w.1) [w.2])) (n := 3)
        (by simp [byteCount_writeSlots]) (by simp [byteCount_writeSlots]) rfl 0 (x :: xs)
      rw [hs, show writesSlots s 0 (w :: x :: xs) =
        writeSlots s 0 (BitVec.ofNat 8 w.1) [w.2] ++ writesSlots s 3 (x :: xs) by rw [writesSlots]]

/-- R190 in full: PWR first, then two one-byte frames. -/
theorem powerSeq_eq (on : Bool) (s : State) :
    powerSeq on s = (s.setPwr on).afterFrames (controlSlots s 0 (disp s.cfg on 0#3)) := by
  simp [powerSeq, cmd_stop, levelAt_afterFrames, afterFrames_afterFrames, byteCount, controlSlots]
  simp [State.levelAt]

/-- R191 in full: BRT first, then two one-byte frames. -/
theorem brightSeq_eq (l : Byte) (s : State) :
    brightSeq l s = (s.setBrt (brightStep l)).afterFrames (controlSlots s 0 (disp s.cfg s.pwr (brightStep l))) := by
  simp [brightSeq, cmd_stop, levelAt_afterFrames, afterFrames_afterFrames, byteCount, controlSlots]
  simp [State.levelAt]

/-! ### Acceptance -/

theorem whenOpen_accepts {s : State} (hb : s.built = true) (hl : s.life = .opened) (e : State → State) :
    whenOpen s e = .next (e s) := by
  simp [whenOpen, hb, hl]

/-- Everything `whenOpen` can answer with a next state. -/
theorem whenOpen_next {s t : State} {e : State → State} (h : whenOpen s e = .next t) :
    s.built = true ∧ s.life = .opened ∧ t = e s := by
  unfold whenOpen at h
  split at h
  · split at h
    · rename_i hb _ hl
      injection h with h
      exact ⟨hb, hl, h.symm⟩
    · cases h
  · cases h

end Sys2Proof.Machine
end

