-- ==== Sys2Proof/Laws/Exec.lean ====
section
/-! SUPPORT. What every operation's meaning is: an effect behind the one acceptance check. -/

namespace Sys2Proof.Machine

open Sys2Proof

/-- Every meaning is an effect where the block accepts it, and the same refusals elsewhere (R35, R212). -/
theorem exec_eq_whenOpen (i : Instr) : ∃ e : State → State, ∀ s, exec i s = whenOpen s e := by
  cases i <;> exact ⟨_, fun _ => rfl⟩

/-- What an operation that completes tells of the state it started in. -/
theorem exec_next_accepts {i : Instr} {s t : State} (h : exec i s = .next t) : s.built = true ∧ s.life = .opened := by
  obtain ⟨e, he⟩ := exec_eq_whenOpen i
  rw [he] at h
  exact ⟨(whenOpen_next h).1, (whenOpen_next h).2.1⟩

/-- The refusals an operation can answer with. -/
theorem exec_refused {i : Instr} {s : State} {r : Refusal} (h : exec i s = .refused r) :
    (s.built = true ∧ s.life = .closed ∧ r = .closed) ∨ (s.built = false ∧ r = .beforeReset) := by
  obtain ⟨e, he⟩ := exec_eq_whenOpen i
  rw [he] at h
  rcases hb : s.built with _ | _ <;> rcases hl : s.life with _ | _ <;> simp [whenOpen, hb, hl] at h <;> simp [← h]

/-- Everything a step can answer with a next state. -/
theorem step_next {s t : State} (h : step s = .next t) :
    (s.inputs = [] ∧ t = s) ∨
    (∃ w rest i, s.inputs = .op w :: rest ∧ s.built = true ∧ decode w = .ok i ∧ exec i { s with inputs := rest } = .next t) ∨
    (∃ c rest, s.inputs = .reset c :: rest ∧ c.wf = true ∧ t = applyReset c { s with inputs := rest }) := by
  unfold step stepPort at h
  rcases hi : s.inputs with _ | ⟨x, rest⟩
  · rw [hi] at h
    injection h with h
    exact .inl ⟨rfl, h.symm⟩
  · rw [hi] at h
    rcases x with w | c
    · simp only [takeInput, present] at h
      rcases hb : s.built with _ | _
      · simp [hb] at h
      · rcases hd : decode w with e | i
        · simp [hb, hd] at h
        · simp [hb, hd] at h
          exact .inr (.inl ⟨w, rest, i, rfl, rfl, hd, h⟩)
    · simp only [takeInput, takeReset] at h
      rcases hc : c.wf with _ | _
      · simp [hc] at h
      · simp [hc] at h
        exact .inr (.inr ⟨c, rest, rfl, hc, h.symm⟩)

end Sys2Proof.Machine
end

