-- ==== Sys2Proof/Laws/PerInstr.lean ====
section
/-! SUPPORT. The family FieldsRoundTrip of LAWS.json: one lemma for each constructor of Instr. -/

namespace Sys2Proof.Laws.FieldsRoundTrip

open Sys2Proof

/-- The fields of an operation name that operation, and leave every bit it does not use 0 (`30_encoding.md` R73, R75). -/
def Statement (i : Instr) : Prop := decodeFields i.fields = .ok i ∧ i.fields.rsv = 0 ∧ i.fields.fr = 0

theorem txByte (b : Byte) : Statement (.txByte b) := by
  simp [Statement, Instr.fields, decodeFields, rows, Row.reservedClear]

theorem start : Statement .start := by
  simp [Statement, Instr.fields, decodeFields, rows, Row.reservedClear]

theorem stop : Statement .stop := by
  simp [Statement, Instr.fields, decodeFields, rows, Row.reservedClear]

theorem sendCmd (b : Byte) (st : Bool) : Statement (.sendCmd b st) := by
  simp [Statement, Instr.fields, decodeFields, rows, Row.reservedClear]

theorem sendData (b : Byte) (st : Bool) : Statement (.sendData b st) := by
  simp [Statement, Instr.fields, decodeFields, rows, Row.reservedClear]

theorem beginWrite (p : Byte) : Statement (.beginWrite p) := by
  simp [Statement, Instr.fields, decodeFields, rows, Row.reservedClear]

theorem clear : Statement .clear := by
  simp [Statement, Instr.fields, decodeFields, rows, Row.reservedClear]

theorem setBlank (p : Byte) : Statement (.setBlank p) := by
  simp [Statement, Instr.fields, decodeFields, rows, Row.reservedClear]

theorem testAll : Statement .testAll := by
  simp [Statement, Instr.fields, decodeFields, rows, Row.reservedClear]

theorem setInt (n : Value) (c : Bool) : Statement (.setInt n c) := by
  simp [Statement, Instr.fields, decodeFields, rows, Row.reservedClear]

theorem setHours (v : Value) (c : Bool) (z : Bool) : Statement (.setHours v c z) := by
  simp [Statement, Instr.fields, decodeFields, rows, Row.reservedClear]

theorem setMinutes (v : Value) (z : Bool) : Statement (.setMinutes v z) := by
  simp [Statement, Instr.fields, decodeFields, rows, Row.reservedClear]

theorem close : Statement .close := by
  simp [Statement, Instr.fields, decodeFields, rows, Row.reservedClear]

theorem decode (v : Value) (i : Byte) : Statement (.decode v i) := by
  simp [Statement, Instr.fields, decodeFields, rows, Row.reservedClear]

theorem setCoding (m : Coding) : Statement (.setCoding m) := by cases m <;> exact ⟨rfl, rfl, rfl⟩

theorem setPower (on : Bool) : Statement (.setPower on) := by
  simp [Statement, Instr.fields, decodeFields, rows, Row.reservedClear]

theorem setBright (l : Byte) : Statement (.setBright l) := by
  simp [Statement, Instr.fields, decodeFields, rows, Row.reservedClear]

end Sys2Proof.Laws.FieldsRoundTrip
end

