-- ==== Sys2Proof/Laws/Wire.lean ====
section
/-! SUPPORT. Every operation moves the wire by whole items: the one inversion the invariants over the trace rest on. -/

namespace Sys2Proof.Machine

open Sys2Proof

theorem linesAfter_append (x : Level × Level) (a b : List Slot) :
    linesAfter x (a ++ b) = linesAfter (linesAfter x a) b := by
  induction a generalizing x with
  | nil => rfl
  | cons y a ih => cases y <;> simp [linesAfter, ih]

/-- `t` is `s` moved on by `items`: the trace, FRAME, the pin latches and the samples (R28 to R30), with the configuration, CLK's
direction and the host's side untouched. -/
structure Wired (s t : State) (items : List Slot) : Prop where
  trace : t.trace = s.trace ++ wireEvents items
  frame : t.frame = frameAfter s.frame items
  lines : (t.clkLvl, t.dioLvl) = linesAfter (s.clkLvl, s.dioLvl) items
  dioDir : t.dioDir = if byteCount items = 0 then s.dioDir else .output
  draws : t.draws = s.draws.drop (byteCount items)
  drawn : t.drawn = s.drawn + byteCount items
  clkDir : t.clkDir = s.clkDir
  cfg : t.cfg = s.cfg
  built : t.built = s.built
  inputs : t.inputs = s.inputs
  noReset : Slot.reset ∉ items

theorem Wired.of_byte (s : State) (a : List Slot) (b : Byte) (l : Level) (ha : items = a ++ [.byte b l])
    (hr : Slot.reset ∉ items) : Wired s (s.afterBytes items) items := by
  refine ⟨?_, ?_, ?_, ?_, ?_, ?_, ?_, ?_, ?_, ?_, hr⟩ <;> subst ha <;> simp [State.afterBytes, byteCount_append, byteCount, linesAfter_append, linesAfter]

theorem Wired.of_stop (s : State) (a : List Slot) (ha : items = a ++ [.stop]) (hn : byteCount items ≠ 0)
    (hr : Slot.reset ∉ items) : Wired s (s.afterFrames items) items := by
  refine ⟨?_, ?_, ?_, ?_, ?_, ?_, ?_, ?_, ?_, ?_, hr⟩ <;> subst ha <;> simp [State.afterFrames, State.afterBytes, frameAfter_append, frameAfter, linesAfter_append,
    linesAfter, hn]

/-- A register written before or after, or a result returned, does not move the wire. -/
theorem Wired.change {s t s' t' : State} {items : List Slot} (h : Wired s t items)
    (hs : s'.trace = s.trace ∧ s'.frame = s.frame ∧ s'.clkLvl = s.clkLvl ∧ s'.dioLvl = s.dioLvl ∧ s'.dioDir = s.dioDir ∧
      s'.draws = s.draws ∧ s'.drawn = s.drawn ∧ s'.clkDir = s.clkDir ∧ s'.cfg = s.cfg ∧ s'.built = s.built ∧
      s'.inputs = s.inputs)
    (ht : t'.trace = t.trace ∧ t'.frame = t.frame ∧ t'.clkLvl = t.clkLvl ∧ t'.dioLvl = t.dioLvl ∧ t'.dioDir = t.dioDir ∧
      t'.draws = t.draws ∧ t'.drawn = t.drawn ∧ t'.clkDir = t.clkDir ∧ t'.cfg = t.cfg ∧ t'.built = t.built ∧
      t'.inputs = t.inputs) : Wired s' t' items := by
  obtain ⟨h1, h2, h3, h4, h5, h6, h7, h8, h9, h10, h11⟩ := h
  refine ⟨?_, ?_, ?_, ?_, ?_, ?_, ?_, ?_, ?_, ?_, h11⟩ <;> simp only [*]

theorem Wired.trans {s t u : State} {a b : List Slot} (h : Wired s t a) (k : Wired t u b) : Wired s u (a ++ b) := by
  obtain ⟨h1, h2, h3, h4, h5, h6, h7, h8, h9, h10, h11⟩ := h
  obtain ⟨k1, k2, k3, k4, k5, k6, k7, k8, k9, k10, k11⟩ := k
  refine ⟨?_, ?_, ?_, ?_, ?_, ?_, k7.trans h7, k8.trans h8, k9.trans h9, k10.trans h10,
    by simp [h11, k11]⟩
  · rw [k1, h1, wireEvents_append, List.append_assoc]
  · rw [k2, h2, frameAfter_append]
  · rw [k3, h3, linesAfter_append]
  · rw [k4, h4, byteCount_append]
    split <;> split <;> simp_all
  · rw [k5, h5, byteCount_append, List.drop_drop]
  · rw [k6, h6, byteCount_append, Nat.add_assoc]

theorem Wired.refl (s : State) : Wired s s [] := by
  constructor <;> simp [wireEvents, frameAfter, linesAfter, byteCount]

theorem wired_startCond (s : State) : Wired s (startCond s) [.start] := by
  rw [startCond_eq]
  constructor <;> simp [frameAfter, linesAfter, byteCount]

theorem wired_stopCond (s : State) : Wired s (stopCond s) [.stop] := by
  rw [stopCond_eq]
  constructor <;> simp [frameAfter, linesAfter, byteCount]

theorem wired_tx (b : Byte) (s : State) : Wired s (tx b s).1 [.byte b (s.levelAt 0)] := by
  rw [tx_eq]
  exact .of_byte s [] b _ rfl (by simp)

theorem writesSlots_ends (s : State) (k : Nat) (w : Nat × Byte) (ws : List (Nat × Byte)) :
    ∃ a, writesSlots s k (w :: ws) = a ++ [.stop] := by
  induction ws generalizing k w with
  | nil => exact ⟨_, by rw [writesSlots, writesSlots, List.append_nil, writeSlots]⟩
  | cons x xs ih =>
    obtain ⟨a, ha⟩ := ih (k + 3) x
    exact ⟨writeSlots s k (BitVec.ofNat 8 w.1) [w.2] ++ a, by rw [writesSlots, ha, List.append_assoc]⟩

theorem reset_notMem_bytesFrom (s : State) (k : Nat) (bs : List Byte) : Slot.reset ∉ bytesFrom s k bs := by
  induction bs generalizing k with
  | nil => exact List.not_mem_nil
  | cons b bs ih => simp [bytesFrom, ih]

theorem reset_notMem_writeSlots (s : State) (k : Nat) (p : Byte) (bs : List Byte) :
    Slot.reset ∉ writeSlots s k p bs := by
  simp [writeSlots, beginSlots, reset_notMem_bytesFrom]

theorem reset_notMem_writesSlots (s : State) (k : Nat) (ws : List (Nat × Byte)) :
    Slot.reset ∉ writesSlots s k ws := by
  induction ws generalizing k with
  | nil => exact List.not_mem_nil
  | cons w ws ih => simp [writesSlots, reset_notMem_writeSlots, ih]

theorem wired_write (s : State) (p : Byte) (bs : List Byte) :
    Wired s (s.afterFrames (writeSlots s 0 p bs)) (writeSlots s 0 p bs) :=
  .of_stop s _ rfl (by simp [byteCount_writeSlots]) (reset_notMem_writeSlots s 0 p bs)

theorem wired_writes (s : State) (ws : List (Nat × Byte)) (hw : ws ≠ []) :
    Wired s (s.afterFrames (writesSlots s 0 ws)) (writesSlots s 0 ws) := by
  cases ws with
  | nil => exact absurd rfl hw
  | cons w ws =>
    obtain ⟨a, ha⟩ := writesSlots_ends s 0 w ws
    exact .of_stop s a ha (by simp [byteCount_writesSlots]) (reset_notMem_writesSlots s 0 _)

theorem wired_control (s : State) (c : Byte) :
    Wired s (s.afterFrames (controlSlots s 0 c)) (controlSlots s 0 c) :=
  .of_stop s [.start, .byte s.cfg.cmdDataAuto (s.levelAt 0), .stop, .start, .byte c (s.levelAt 1)] rfl
    (by simp [controlSlots, byteCount]) (by simp [controlSlots])

theorem intWrites_ne_nil (cod : Coding) (n : Value) (colon : Bool) : intWrites cod n colon ≠ [] := by
  have h : ∀ w, intDigits cod colon nposLogical w ≠ [] := by
    intro w
    rw [show nposLogical = 3 + 1 from rfl, intDigits]
    exact List.cons_ne_nil _ _
  unfold intWrites
  simp only
  split
  · exact List.cons_ne_nil _ _
  · split
    · exact List.append_ne_nil_of_left_ne_nil (h _) _
    · exact h _

/-- The items each operation appends to the trace (R90). -/
def itemsOf (i : Instr) (s : State) : List Slot :=
  match i with
  | .txByte b => [.byte b (s.levelAt 0)]
  | .start => [.start]
  | .stop => [.stop]
  | .sendCmd b st => [.start, .byte b (s.levelAt 0)] ++ (if st then [.stop] else [])
  | .sendData b st => [.byte b (s.levelAt 0)] ++ (if st then [.stop] else [])
  | .beginWrite p => beginSlots s 0 p
  | .clear => writeSlots s 0 1#8 [blankByte, blankByte, blankByte, blankByte, blankByte, blankByte]
  | .setBlank p => writeSlots s 0 p [blankByte]
  | .testAll => writeSlots s 0 1#8 [allByte, allByte, allByte, allByte, allByte, allByte]
  | .setInt n colon => writesSlots s 0 (intWrites s.cod n colon)
  | .setHours v colon zero => writeSlots s 0 1#8 [tensByte v zero, onesByte v colon]
  | .setMinutes v zero => writeSlots s 0 3#8 [tensByte v zero, decP v 0#8]
  | .close =>
    writeSlots s 0 1#8 [blankByte, blankByte, blankByte, blankByte, blankByte, blankByte] ++
      controlSlots s 8 (disp s.cfg false 0#3)
  | .decode _ _ | .setCoding _ => []
  | .setPower on => controlSlots s 0 (disp s.cfg on 0#3)
  | .setBright l => controlSlots s 0 (disp s.cfg s.pwr (brightStep l))

/-- The result word each operation returns (R76, R214). -/
def resultOf (i : Instr) (s : State) : ResultWord :=
  match i with
  | .txByte _ | .sendCmd _ _ | .sendData _ _ => resultAck (ackOf (s.levelAt 0))
  | .beginWrite _ => resultAck (ackOf (s.levelAt 1))
  | .decode v k => resultByte (dec s.cod v k)
  | .start | .stop | .clear | .setBlank _ | .testAll | .setInt _ _ | .setHours _ _ _ | .setMinutes _ _ | .close
  | .setCoding _ | .setPower _ | .setBright _ => resultVoid

/-- The registers each operation leaves (R22 to R25, R31), and its one result. -/
structure Registered (i : Instr) (s t : State) : Prop where
  pwr : t.pwr = match i with
    | .setPower on => on
    | .close => false
    | _ => s.pwr
  brt : t.brt = match i with
    | .setBright l => brightStep l
    | _ => s.brt
  cod : t.cod = match i with
    | .setCoding m => m
    | _ => s.cod
  life : t.life = match i with
    | .close => .closed
    | _ => s.life
  results : t.results = s.results ++ [resultOf i s]

/-- The wire and the host's side of a state: what a register written, or a result returned, leaves as it is. -/
theorem same_wire (x : State) : x.trace = x.trace ∧ x.frame = x.frame ∧ x.clkLvl = x.clkLvl ∧ x.dioLvl = x.dioLvl ∧
    x.dioDir = x.dioDir ∧ x.draws = x.draws ∧ x.drawn = x.drawn ∧ x.clkDir = x.clkDir ∧ x.cfg = x.cfg ∧
    x.built = x.built ∧ x.inputs = x.inputs :=
  ⟨rfl, rfl, rfl, rfl, rfl, rfl, rfl, rfl, rfl, rfl, rfl⟩

/-- Everything an operation does from `s` to `t`: the wire moved by its items, and the registers. -/
def Does (i : Instr) (s t : State) : Prop := Wired s t (itemsOf i s) ∧ Registered i s t

theorem does_txByte (b : Byte) {s t : State} (ha : s.accepts) (h : exec (.txByte b) s = .next t) : Does (.txByte b) s t := by
  simp only [exec, execTxByte, finishAck, whenOpen_accepts ha.1 ha.2, Host.Outcome.next.injEq] at h
  subst h
  refine ⟨(wired_tx b s).change (same_wire s) (same_wire _), ?_⟩
  rw [tx_eq]
  constructor <;> rfl

theorem does_start {s t : State} (ha : s.accepts) (h : exec .start s = .next t) : Does .start s t := by
  simp only [exec, execStart, finish, whenOpen_accepts ha.1 ha.2, Host.Outcome.next.injEq] at h
  subst h
  have w := wired_startCond s
  rw [startCond_eq] at w ⊢
  exact ⟨w.change (same_wire s) (same_wire _), by constructor <;> rfl⟩

theorem does_stop {s t : State} (ha : s.accepts) (h : exec .stop s = .next t) : Does .stop s t := by
  simp only [exec, execStop, finish, whenOpen_accepts ha.1 ha.2, Host.Outcome.next.injEq] at h
  subst h
  have w := wired_stopCond s
  rw [stopCond_eq] at w ⊢
  exact ⟨w.change (same_wire s) (same_wire _), by constructor <;> rfl⟩

theorem does_sendCmd (b : Byte) (st : Bool) {s t : State} (ha : s.accepts) (h : exec (.sendCmd b st) s = .next t) : Does (.sendCmd b st) s t := by
  simp only [exec, execSendCmd, finishAck, whenOpen_accepts ha.1 ha.2, Host.Outcome.next.injEq] at h
  subst h
  have w := (wired_startCond s).trans (wired_tx b (startCond s))
  cases st
  · refine ⟨w.change (same_wire s) (same_wire _), ?_⟩
    rw [cmd_open]
    constructor <;> rfl
  · refine ⟨(w.trans (wired_stopCond _)).change (same_wire s) (same_wire _), ?_⟩
    rw [cmd_stop]
    constructor <;> rfl

theorem does_sendData (b : Byte) (st : Bool) {s t : State} (ha : s.accepts) (h : exec (.sendData b st) s = .next t) : Does (.sendData b st) s t := by
  simp only [exec, execSendData, finishAck, whenOpen_accepts ha.1 ha.2, Host.Outcome.next.injEq] at h
  subst h
  have w := wired_tx b s
  cases st
  · refine ⟨w.change (same_wire s) (same_wire _), ?_⟩
    rw [data_open]
    constructor <;> rfl
  · refine ⟨(w.trans (wired_stopCond _)).change (same_wire s) (same_wire _), ?_⟩
    rw [data_stop]
    constructor <;> rfl

theorem does_beginWrite (p : Byte) {s t : State} (ha : s.accepts) (h : exec (.beginWrite p) s = .next t) : Does (.beginWrite p) s t := by
  simp only [exec, execBeginWrite, finishAck, whenOpen_accepts ha.1 ha.2, Host.Outcome.next.injEq, beginAt_eq] at h
  subst h
  exact ⟨(Wired.of_byte s [.start, .byte s.cfg.cmdDataAuto (s.levelAt 0), .start] _ _ rfl
    (by simp)).change (same_wire s) (same_wire _), by constructor <;> rfl⟩

theorem does_clear {s t : State} (ha : s.accepts) (h : exec .clear s = .next t) : Does .clear s t := by
  simp only [exec, execClear, finish, whenOpen_accepts ha.1 ha.2, Host.Outcome.next.injEq, fill6_eq] at h
  subst h
  exact ⟨(wired_write s _ _).change (same_wire s) (same_wire _), by constructor <;> rfl⟩

theorem does_setBlank (p : Byte) {s t : State} (ha : s.accepts) (h : exec (.setBlank p) s = .next t) : Does (.setBlank p) s t := by
  simp only [exec, execSetBlank, finish, whenOpen_accepts ha.1 ha.2, Host.Outcome.next.injEq, write1_eq] at h
  subst h
  exact ⟨(wired_write s _ _).change (same_wire s) (same_wire _), by constructor <;> rfl⟩

theorem does_testAll {s t : State} (ha : s.accepts) (h : exec .testAll s = .next t) : Does .testAll s t := by
  simp only [exec, execTestAll, finish, whenOpen_accepts ha.1 ha.2, Host.Outcome.next.injEq, fill6_eq] at h
  subst h
  exact ⟨(wired_write s _ _).change (same_wire s) (same_wire _), by constructor <;> rfl⟩

theorem does_setInt (n : Value) (c : Bool) {s t : State} (ha : s.accepts) (h : exec (.setInt n c) s = .next t) : Does (.setInt n c) s t := by
  simp only [exec, execSetInt, finish, whenOpen_accepts ha.1 ha.2, Host.Outcome.next.injEq] at h
  rw [writeAll_eq _ (intWrites_ne_nil _ _ _)] at h
  subst h
  exact ⟨(wired_writes s _ (intWrites_ne_nil _ _ _)).change (same_wire s) (same_wire _), by constructor <;> rfl⟩

theorem does_setHours (v : Value) (c : Bool) (z : Bool) {s t : State} (ha : s.accepts) (h : exec (.setHours v c z) s = .next t) : Does (.setHours v c z) s t := by
  simp only [exec, execSetHours, finish, whenOpen_accepts ha.1 ha.2, Host.Outcome.next.injEq] at h
  rw [stream_beginAt _ _ (by simp)] at h
  subst h
  exact ⟨(wired_write s _ _).change (same_wire s) (same_wire _), by constructor <;> rfl⟩

theorem does_setMinutes (v : Value) (z : Bool) {s t : State} (ha : s.accepts) (h : exec (.setMinutes v z) s = .next t) : Does (.setMinutes v z) s t := by
  simp only [exec, execSetMinutes, finish, whenOpen_accepts ha.1 ha.2, Host.Outcome.next.injEq] at h
  rw [stream_beginAt _ _ (by simp)] at h
  subst h
  exact ⟨(wired_write s _ _).change (same_wire s) (same_wire _), by constructor <;> rfl⟩

theorem does_close {s t : State} (ha : s.accepts) (h : exec .close s = .next t) : Does .close s t := by
  simp only [exec, execClose, finish, whenOpen_accepts ha.1 ha.2, Host.Outcome.next.injEq, fill6_eq, powerSeq_eq] at h
  subst h
  have w := wired_control ((s.afterFrames (writeSlots s 0 1#8 [blankByte, blankByte, blankByte, blankByte, blankByte,
    blankByte])).setPwr false) (disp s.cfg false 0#3)
  have v := (wired_write s _ _).trans (w.change (s' := s.afterFrames _) (same_wire _) (same_wire _))
  have e : controlSlots ((s.afterFrames (writeSlots s 0 1#8 [blankByte, blankByte, blankByte, blankByte, blankByte,
      blankByte])).setPwr false) 0 (disp s.cfg false 0#3) = controlSlots s 8 (disp s.cfg false 0#3) := by
    have l : ∀ k, ((s.afterFrames (writeSlots s 0 1#8 [blankByte, blankByte, blankByte, blankByte, blankByte,
        blankByte])).setPwr false).levelAt k = s.levelAt (8 + k) :=
      levelAt_of_dropped (by simp [State.setPwr, byteCount_writeSlots]) (by simp [State.setPwr, byteCount_writeSlots])
    simp only [controlSlots, l]
    rfl
  refine ⟨?_, by constructor <;> rfl⟩
  rw [itemsOf, ← e]
  exact v.change (same_wire s) (same_wire _)

theorem does_decode (v : Value) (k : Byte) {s t : State} (ha : s.accepts) (h : exec (.decode v k) s = .next t) : Does (.decode v k) s t := by
  simp only [exec, execDecode, whenOpen_accepts ha.1 ha.2, Host.Outcome.next.injEq] at h
  subst h
  exact ⟨(Wired.refl s).change (same_wire s) (same_wire _), by constructor <;> rfl⟩

theorem does_setCoding (m : Coding) {s t : State} (ha : s.accepts) (h : exec (.setCoding m) s = .next t) : Does (.setCoding m) s t := by
  simp only [exec, execSetCoding, finish, whenOpen_accepts ha.1 ha.2, Host.Outcome.next.injEq] at h
  subst h
  exact ⟨(Wired.refl s).change (same_wire s) (same_wire _), by constructor <;> rfl⟩

theorem does_setPower (on : Bool) {s t : State} (ha : s.accepts) (h : exec (.setPower on) s = .next t) : Does (.setPower on) s t := by
  simp only [exec, execSetPower, finish, whenOpen_accepts ha.1 ha.2, Host.Outcome.next.injEq, powerSeq_eq] at h
  subst h
  exact ⟨(wired_control (s.setPwr on) _).change (same_wire s) (same_wire _), by constructor <;> rfl⟩

theorem does_setBright (l : Byte) {s t : State} (ha : s.accepts) (h : exec (.setBright l) s = .next t) : Does (.setBright l) s t := by
  simp only [exec, execSetBright, finish, whenOpen_accepts ha.1 ha.2, Host.Outcome.next.injEq, brightSeq_eq] at h
  subst h
  exact ⟨(wired_control (s.setBrt (brightStep l)) _).change (same_wire s) (same_wire _), by constructor <;> rfl⟩

/-- Everything an operation that completes does. -/
theorem exec_next {i : Instr} {s t : State} (h : exec i s = .next t) : Does i s t := by
  have ha : s.accepts := exec_next_accepts h
  cases i with
  | txByte _ => exact does_txByte _ ha h
  | start => exact does_start ha h
  | stop => exact does_stop ha h
  | sendCmd _ _ => exact does_sendCmd _ _ ha h
  | sendData _ _ => exact does_sendData _ _ ha h
  | beginWrite _ => exact does_beginWrite _ ha h
  | clear => exact does_clear ha h
  | setBlank _ => exact does_setBlank _ ha h
  | testAll => exact does_testAll ha h
  | setInt _ _ => exact does_setInt _ _ ha h
  | setHours _ _ _ => exact does_setHours _ _ _ ha h
  | setMinutes _ _ => exact does_setMinutes _ _ ha h
  | close => exact does_close ha h
  | decode _ _ => exact does_decode _ _ ha h
  | setCoding _ => exact does_setCoding _ ha h
  | setPower _ => exact does_setPower _ ha h
  | setBright _ => exact does_setBright _ ha h

/-- Where the block accepts operations, every one completes (R219). -/
theorem exec_completes (i : Instr) {s : State} (h : s.accepts) : ∃ t, exec i s = .next t := by
  obtain ⟨e, he⟩ := exec_eq_whenOpen i
  exact ⟨_, (he s).trans (whenOpen_accepts h.1 h.2 e)⟩

/-- Two states that agree on every field are one state. -/
theorem State.ext_fields {s t : State} (h1 : s.cfg = t.cfg) (h2 : s.pwr = t.pwr) (h3 : s.brt = t.brt) (h4 : s.cod = t.cod)
    (h5 : s.clkLvl = t.clkLvl) (h6 : s.clkDir = t.clkDir) (h7 : s.dioLvl = t.dioLvl) (h8 : s.dioDir = t.dioDir)
    (h9 : s.frame = t.frame) (h10 : s.life = t.life) (h11 : s.trace = t.trace) (h12 : s.built = t.built)
    (h13 : s.inputs = t.inputs) (h14 : s.results = t.results) (h15 : s.draws = t.draws) (h16 : s.drawn = t.drawn) :
    s = t := by
  cases s
  cases t
  simp_all

/-- R230 in full, up to its last line. -/
theorem primed_eq (c : Config) (s : State) :
    primed c s =
      { s with
        cfg := c
        pwr := c.resetPwr
        brt := brightStep c.initBrightness
        cod := .packedDecimal
        clkLvl := .high
        clkDir := .output
        dioLvl := .high
        dioDir := .output
        frame := .idle
        life := .opened
        trace := s.trace ++ wireEvents [.reset]
        built := true } := by
  simp [primed, setLevel, setDir, State.emit, State.setPwr, State.setBrt, State.setCod, State.setFrame, State.setLife,
    wireEvents, Slot.events]

/-- A reset moves the wire by whole items too, the pin priming first, and leaves both pins outputs (R230, R232). -/
theorem applyReset_wire (c : Config) (s : State) :
    ∃ items, Slot.reset ∉ items ∧
      (applyReset c s).trace = s.trace ++ wireEvents (.reset :: items) ∧
      (applyReset c s).frame = frameAfter .idle items ∧
      ((applyReset c s).clkLvl, (applyReset c s).dioLvl) = linesAfter (.high, .high) items ∧
      (applyReset c s).drawn = s.drawn + byteCount items ∧
      (applyReset c s).clkDir = .output ∧ (applyReset c s).dioDir = .output := by
  rcases hc : c.initEmitsBrightness with _ | _
  · have hr : applyReset c s = primed c s := by simp [applyReset, hc]
    rw [hr, primed_eq]
    exact ⟨[], List.not_mem_nil, rfl, rfl, rfl, rfl, rfl, rfl⟩
  · have hr : applyReset c s = brightSeq c.initBrightness (primed c s) := by simp [applyReset, hc]
    have w := wired_control ((primed c s).setBrt (brightStep c.initBrightness))
      (disp (primed c s).cfg (primed c s).pwr (brightStep c.initBrightness))
    rw [hr, brightSeq_eq]
    refine ⟨_, w.noReset, w.trace.trans ?_, w.frame.trans ?_, w.lines.trans ?_, w.drawn.trans ?_, w.clkDir.trans ?_, rfl⟩
    · rw [wireEvents_cons, ← List.append_assoc]
      simp [primed_eq, State.setBrt, wireEvents]
    all_goals simp [primed_eq, State.setBrt]

end Sys2Proof.Machine
end

