-- ==== Sys2Proof/Tests/Slice0.lean ====
section
/-! SUPPORT. Tests of the model, each on one operation, with the results of `95_test_vectors.md` (named V-...) or of the rule named; and a
witness for the hypotheses of each obligation. -/

namespace Sys2Proof.Tests

open Sys2Proof Sys2Proof.Machine

/-! ### Helpers -/

/-- The reset state, with the levels the coming samples return. -/
def drawing (ds : List Level) : State := { State.reset with draws := ds }

/-- Eleven samples, all acknowledged: enough for any one operation but SET_INT of four digits. -/
def acked : State := drawing (List.replicate 11 .low)

/-- What a look at the next state shows, where there is one. -/
def after {α : Type} (o : Host.Outcome State Fault Refusal) (look : State → α) : Option α :=
  match o with
  | .next t => some (look t)
  | .fault _ => none
  | .refused _ => none

/-- The refusal of an outcome, where it is one. -/
def refusal (o : Host.Outcome State Fault Refusal) : Option Refusal :=
  match o with
  | .refused r => some r
  | .next _ => none
  | .fault _ => none

/-- The word's frames, read back off the events it appends. -/
def sent (w : OpWord) (s : State) : Option (List Slot) :=
  match present w s with
  | .next t => readTrace (t.trace.drop s.trace.length)
  | .fault _ => none
  | .refused _ => none

/-- The result word an operation word returns. -/
def result (w : OpWord) (s : State) : Option (List ResultWord) := after (present w s) (·.results)

/-- A byte slot that was acknowledged. -/
def ok (b : Byte) : Slot := .byte b .low

/-- A byte slot that was not. -/
def nack (b : Byte) : Slot := .byte b .high

/-! ### WellFormed: an ill-formed term for each check -/

theorem test_wf_default : Config.default.wf = true := by decide
theorem test_wf_one_pin : Config.wf { Config.default with dioPin := Config.default.clkPin } = false := by decide
theorem test_wf_disp_on_low_bits : Config.wf { Config.default with cmdDispOn := 0x89 } = false := by decide
theorem test_wf_disp_off_low_bits : Config.wf { Config.default with cmdDispOff := 0x84 } = false := by decide
theorem test_wf_reset_refuses :
    refusal (step { State.reset with inputs := [.reset { Config.default with cmdDispOn := 0x8F }] }) =
      some .badConfiguration := by decide

/-! ### Decode: a word for each constructor, written out from R73 and R74 -/

theorem test_decode_txByte : decode 0x0100A50000000000 = .ok (.txByte 0xA5) := by rfl
theorem test_decode_start : decode 0x0200000000000000 = .ok .start := by rfl
theorem test_decode_stop : decode 0x0300000000000000 = .ok .stop := by rfl
theorem test_decode_sendCmd : decode 0x0400400100000000 = .ok (.sendCmd 0x40 true) := by rfl
theorem test_decode_sendData : decode 0x05005B0000000000 = .ok (.sendData 0x5B false) := by rfl
theorem test_decode_beginWrite : decode 0x0600090000000000 = .ok (.beginWrite 9) := by rfl
theorem test_decode_clear : decode 0x1000000000000000 = .ok .clear := by rfl
theorem test_decode_setBlank : decode 0x1100FF0000000000 = .ok (.setBlank 255) := by rfl
theorem test_decode_testAll : decode 0x1200000000000000 = .ok .testAll := by rfl
theorem test_decode_setInt : decode 0x13000001FFFFFFFB = .ok (.setInt 0xFFFFFFFB true) := by rfl
theorem test_decode_setHours_colon : decode 0x140000010000000C = .ok (.setHours 12 true false) := by rfl
theorem test_decode_setHours_zero : decode 0x1400000200000017 = .ok (.setHours 23 false true) := by rfl
theorem test_decode_setMinutes : decode 0x1500000200000005 = .ok (.setMinutes 5 true) := by rfl
theorem test_decode_close : decode 0x1600000000000000 = .ok .close := by rfl
theorem test_decode_decode : decode 0x2000C800000004D2 = .ok (.decode 1234 200) := by rfl
theorem test_decode_setCoding : decode 0x2100000100000000 = .ok (.setCoding .rawByte) := by rfl
theorem test_decode_setPower : decode 0x3000000100000000 = .ok (.setPower true) := by rfl
theorem test_decode_setBright : decode 0x3100C80000000000 = .ok (.setBright 200) := by rfl

/-- V-REF-1 to V-REF-3, and the OPC next to R73's last. -/
theorem test_decode_unassigned :
    [0xFF00000000000000, 0x0700000000000000, 0x0000000000000000, 0x3200000000000000].map
      (fun w => refusal (present w State.reset)) = List.replicate 4 (some .unassigned) := by decide

/-- V-REF-4 to V-REF-9. -/
theorem test_decode_reserved :
    [0x0200000000000001, 0x0101010000000000, 0x1300010000000000, 0x1500000100000000, 0x2100000500000000,
      0x1400000400000005].map (fun w => refusal (present w State.reset)) =
      List.replicate 6 (some .reserved) := by decide

/-- V-REF-10 to V-REF-14: while CLOSED, the lowest REASON. -/
theorem test_refused_closed :
    [0x3000000100000000, 0x1600000000000000, 0x2000000000000005, 0xFF00000000000000, 0x0200000000000001].map
      (fun w => refusal (present w { State.reset with life := .closed })) =
      [some .closed, some .closed, some .closed, some .unassigned, some .reserved] := by decide

/-- V-REF-1, V-REF-4, V-REF-10: the result words. -/
theorem test_refusal_results :
    [Refusal.unassigned, .reserved, .closed].map Refusal.result =
      [some 0x8200#16, some 0x8400#16, some 0x8600#16] := by decide

/-! ### The transmitter -/

/-- V-TX-1: the 31 events. -/
theorem test_txByte_events :
    after (present 0x0100400000000000 acked) (fun t => t.trace.drop 4) = some
      [.lvl .clk .low, .lvl .dio .low, .lvl .clk .high, .lvl .clk .low, .lvl .dio .low, .lvl .clk .high,
       .lvl .clk .low, .lvl .dio .low, .lvl .clk .high, .lvl .clk .low, .lvl .dio .low, .lvl .clk .high,
       .lvl .clk .low, .lvl .dio .low, .lvl .clk .high, .lvl .clk .low, .lvl .dio .low, .lvl .clk .high,
       .lvl .clk .low, .lvl .dio .high, .lvl .clk .high, .lvl .clk .low, .lvl .dio .low, .lvl .clk .high,
       .dir .dio .input, .lvl .clk .low, .lvl .clk .high, .rd .dio .low, .dir .dio .output, .lvl .dio .high,
       .lvl .clk .low] := by decide

/-- V-TX-4: not acknowledged. -/
theorem test_txByte_nack : result 0x0100400000000000 (drawing [.high]) = some [0x0000#16] := by decide

/-! ### The framer -/

/-- V-FR-1. -/
theorem test_start_events :
    after (present 0x0200000000000000 acked) (fun t => (t.trace.drop 4, t.frame)) =
      some ([.lvl .clk .high, .lvl .dio .low], .opened) := by decide

/-- V-FR-13. -/
theorem test_stop_events :
    after (present 0x0300000000000000 acked) (fun t => (t.trace.drop 4, t.frame)) =
      some ([.lvl .dio .low, .lvl .clk .high, .lvl .dio .high], .idle) := by decide

/-- V-FR-4. -/
theorem test_sendCmd_nack :
    (sent 0x0400400100000000 (drawing [.high]), result 0x0400400100000000 (drawing [.high])) =
      (some [.start, nack 0x40, .stop], some [0x0000#16]) := by decide

/-- V-FR-5. -/
theorem test_sendCmd_open : sent 0x0400400000000000 acked = some [.start, ok 0x40] := by decide

/-- V-FR-6. -/
theorem test_sendData_stop :
    (sent 0x05005B0100000000 acked, result 0x05005B0100000000 acked) =
      (some [ok 0x5B, .stop], some [0x0100#16]) := by decide

/-- V-FR-7. -/
theorem test_sendData_open_keeps_frame :
    after (present 0x05005B0000000000 acked) (·.frame) = some .idle := by decide

/-- V-FR-10: 9 acts as 6. -/
theorem test_beginWrite_saturates :
    sent 0x0600090000000000 acked = some [.start, ok 0x40, .start, ok 0xC5] := by decide

/-- V-FR-11, V-FR-12: the second acknowledgement is the one returned. -/
theorem test_beginWrite_second_ack :
    (result 0x0600020000000000 (drawing [.low, .high]), result 0x0600020000000000 (drawing [.high, .low])) =
      (some [0x0000#16], some [0x0100#16]) := by decide

/-! ### The sequences -/

/-- V-SEQ-9: six bytes, and no acknowledgement in the result. -/
theorem test_clear_nacked :
    (sent 0x1000000000000000 (drawing (List.replicate 8 .high)), result 0x1000000000000000 (drawing (List.replicate 8 .high))) =
      (some [.start, nack 0x40, .start, nack 0xC0, nack 0, nack 0, nack 0, nack 0, nack 0, nack 0, .stop],
        some [0x0000#16]) := by decide +kernel

/-- V-SEQ-2. -/
theorem test_testAll :
    sent 0x1200000000000000 acked =
      some [.start, ok 0x40, .start, ok 0xC0, ok 0xFF, ok 0xFF, ok 0xFF, ok 0xFF, ok 0xFF, ok 0xFF, .stop] := by decide +kernel

/-- V-SEQ-3, V-SEQ-7: both ends saturate. -/
theorem test_setBlank_saturates :
    (sent 0x1100000000000000 acked, sent 0x1100070000000000 acked) =
      (some [.start, ok 0x40, .start, ok 0xC0, ok 0, .stop], some [.start, ok 0x40, .start, ok 0xC5, ok 0, .stop]) := by
  decide +kernel

/-- V-SEQ-10. -/
theorem test_close :
    sent 0x1600000000000000 acked =
      some [.start, ok 0x40, .start, ok 0xC0, ok 0, ok 0, ok 0, ok 0, ok 0, ok 0, .stop,
        .start, ok 0x40, .stop, .start, ok 0x80, .stop] := by decide +kernel

/-- V-SEQ-10: the registers. -/
theorem test_close_registers :
    after (present 0x1600000000000000 { acked with pwr := true }) (fun t => (t.pwr, t.life)) =
      some (false, .closed) := by decide

/-- V-INT-4: the sign beside one digit, no colon. -/
theorem test_setInt_sign :
    sent 0x13000001FFFFFFFB acked =
      some [.start, ok 0x40, .start, ok 0xC3, ok 0x6D, .stop, .start, ok 0x40, .start, ok 0xC2, ok 0x40, .stop] := by
  decide +kernel

/-- V-INT-10, V-INT-13, V-INT-14, V-INT-18, V-INT-2: the writes. -/
theorem test_setInt_writes :
    [intWrites .packedDecimal 0xFFFFFF85 false, intWrites .packedDecimal 12345 true,
      intWrites .packedDecimal 0x80000000 false, intWrites .rawByte 300 false, intWrites .rawByte 0 true] =
      [[(4, 0x4F), (3, 0x5B), (2, 0x06)], [(4, 0x6D), (3, 0x66), (2, 0xCF), (1, 0x5B)],
       [(4, 0x7F), (3, 0x66), (2, 0x7D), (1, 0x4F)], [(4, 0x2C), (3, 0x1E), (2, 0x03)], [(4, 0x3F)]] := by decide

/-- V-HM-4. -/
theorem test_setHours :
    sent 0x1400000300000007 acked = some [.start, ok 0x40, .start, ok 0xC0, ok 0x3F, ok 0x87, .stop] := by decide +kernel

/-- V-COD-4: a blank tens digit, and COD is not read. -/
theorem test_setHours_raw :
    sent 0x1400000000000007 { acked with cod := .rawByte } =
      some [.start, ok 0x40, .start, ok 0xC0, ok 0x00, ok 0x07, .stop] := by decide +kernel

/-- V-HM-12. -/
theorem test_setMinutes_blank :
    sent 0x1500000000000005 acked = some [.start, ok 0x40, .start, ok 0xC2, ok 0x00, ok 0x6D, .stop] := by decide +kernel

/-- V-HM-11: zero is never blank. -/
theorem test_setMinutes_zero :
    sent 0x1500000000000000 acked = some [.start, ok 0x40, .start, ok 0xC2, ok 0x3F, ok 0x3F, .stop] := by decide +kernel

/-! ### The decoder -/

/-- V-DEC-3, V-DEC-9, V-DEC-12, V-DEC-23. -/
theorem test_decode_packed :
    [0x2000C80000000000, 0x200003000000000C, 0x20000200000004D2, 0x20000300FFFFFFFF].map (fun w => result w acked) =
      [some [0x003F#16], some [0x0000#16], some [0x005B#16], some [0x0007#16]] := by decide

/-- V-DECR-2, V-DECR-4, V-DECR-7, V-DECR-9. -/
theorem test_decode_raw :
    [0x2000030000000000, 0x2000010011223344, 0x2000090011223344, 0x2000000000000080].map
      (fun w => result w { acked with cod := .rawByte }) =
      [some [0x0000#16], some [0x0033#16], some [0x0011#16], some [0x0080#16]] := by decide

/-- V-COD-1. -/
theorem test_setCoding :
    after (present 0x2100000100000000 acked) (fun t => (t.cod, t.trace == acked.trace)) =
      some (.rawByte, true) := by decide

/-! ### Power and brightness -/

/-- V-PB-1: step 0, whatever BRT holds. -/
theorem test_setPower_on :
    (sent 0x3000000100000000 { acked with brt := 5 }, after (present 0x3000000100000000 acked) (·.pwr)) =
      (some [.start, ok 0x40, .stop, .start, ok 0x88, .stop], some true) := by decide

/-- V-PB-9. -/
theorem test_setBright_on :
    (sent 0x3100C80000000000 { acked with pwr := true }, after (present 0x3100C80000000000 acked) (·.brt)) =
      (some [.start, ok 0x40, .stop, .start, ok 0x8E, .stop], some 6#3) := by decide

/-- V-PB-14: the off base code. -/
theorem test_setBright_off :
    sent 0x3100FF0000000000 acked = some [.start, ok 0x40, .stop, .start, ok 0x87, .stop] := by decide

/-! ### Reset and the port -/

/-- V-RST-2, and out of CLOSED (R231). -/
theorem test_reset_from_closed :
    after (step { State.reset with
      life := .closed, inputs := [.reset { Config.default with initBrightness := 255 }] })
      (fun t => (t.brt, t.life, t.trace.drop 4)) =
      some (7#3, .opened, [.lvl .clk .high, .lvl .dio .high, .dir .clk .output, .dir .dio .output]) := by decide

/-- V-RST-4. -/
theorem test_reset_emits :
    after (step { acked with
      inputs := [.reset { Config.default with initBrightness := 200, resetPwr := true, initEmitsBrightness := true }] })
      (fun t => readTrace (t.trace.drop 4)) =
      some (some [.reset, .start, ok 0x40, .stop, .start, ok 0x8E, .stop]) := by decide

/-- R35, D39. -/
theorem test_before_reset : refusal (present 0x0200000000000000 State.unbuilt) = some .beforeReset := by decide

/-- R211: the port goes on after a refusal. -/
theorem test_serve_refused :
    serve { acked with inputs := [.op 0x0000000000000000, .op 0x0200000000000000] } =
      { acked with inputs := [.op 0x0200000000000000], results := [0x8200#16] } := by decide

/-- The fetch of the host's first step. -/
theorem test_withFetchWord :
    after (step (State.reset.withFetchWord 64 0x2000000000000005)) (fun t => (t.results, t.inputs)) =
      some ([0x006D#16], []) := by decide

/-! ### The assembler (R79, R80) -/

theorem test_assemble_setInt : assembleLine "SET_INT -5, colon".toList = some [.setInt 0xFFFFFFFB true] := by decide
theorem test_assemble_decode : assembleLine "DECODE 0x11223344, 1".toList = some [.decode 0x11223344 1] := by decide
theorem test_assemble_sendCmd_default : assembleLine "SEND_CMD 0x40".toList = some [.sendCmd 0x40 true] := by decide
theorem test_assemble_write1 :
    assembleLine "WRITE1 3, 0x5B".toList = some [.beginWrite 3, .sendData 0x5B true] := by decide
theorem test_assemble_negative_decode : assembleLine "DECODE -1, 0".toList = none := by decide
theorem test_lineText :
    lineText false true "SET_INT" (asmArgs (.setInt 0xFFFFFFFB true)) = "SET_INT -5, colon".toList := by decide
theorem test_lineText_hex :
    lineText true false "DECODE" (asmArgs (.decode 0x11223344 10)) = "DECODE 0x11223344,0xa".toList := by decide
theorem test_assemble_too_large : assembleLine "TX_BYTE 256".toList = none := by decide

/-! ### Witnesses: the hypotheses of each obligation are met -/

/-- The one hypothesis, `s.accepts`, of EveryOperationCompletes, TxByteSendsOneByte, StartOpensFrame, StopClosesFrame, SendCmdFramesOneByte,
SendDataContinuesFrame, BeginWriteLeavesFrameOpen, WriteOnePseudoInstruction, FillWritesSixPositions, SetBlankWritesOnePosition,
SetIntWritesItsDigits, ClockFieldsShowTwoDigits, CloseClearsAndPowersOff, SetCodingWritesCod, SetPowerSendsBaseCode and SetBrightSendsStep. -/
theorem witness_accepts : State.reset.accepts := ⟨rfl, rfl⟩

theorem witness_EncodeInvertsDecode : ∃ w i, decode w = .ok i := ⟨0x0200000000000000, .start, rfl⟩

theorem witness_MaskAndMatchDecide :
    ∃ row ∈ maskTable, ∃ w : OpWord, w &&& row.2.2 = row.2.1 ∧ ∃ v : OpWord, v &&& row.2.2 ≠ row.2.1 :=
  ⟨("START", 0x0200000000000000, 0xFFFFFFFFFFFFFFFF), by decide, 0x0200000000000000, by decide, 0x0300000000000000, by decide⟩

/-- Both sides of each bound of the five ranges. -/
theorem witness_UnassignedOpcRefused :
    [0x0000000000000000, 0x0700000000000000, 0x0F00000000000000, 0x1700000000000000, 0x1F00000000000000,
      0x2200000000000000, 0x2F00000000000000, 0x3200000000000000, 0xFF00000000000000].map
      (fun w => refusal (present w State.reset)) = List.replicate 9 (some .unassigned) ∧
    [0x0100000000000000, 0x0600000000000000, 0x1000000000000000, 0x1600000000000000, 0x2000000000000000,
      0x2100000000000000, 0x3000000000000000, 0x3100000000000000].map
      (fun w => refusal (present w State.reset)) = List.replicate 8 none := by
  constructor <;> decide

theorem witness_UnassignedOpcRefused_present :
    State.reset.built = true ∧ present 0x0000000000000000 State.reset = .refused .unassigned := ⟨rfl, rfl⟩

theorem witness_ReservedBitRefused :
    ∃ row ∈ maskTable, ∃ w : OpWord, State.reset.built = true ∧ w.extractLsb' 56 8 = row.2.1.extractLsb' 56 8 ∧
      w &&& row.2.2 ≠ row.2.1 :=
  ⟨("START", 0x0200000000000000, 0xFFFFFFFFFFFFFFFF), by decide, 0x0200000000000001, rfl, by decide, by decide⟩

/-- One word for each of the three clauses, in a CLOSED state. -/
theorem witness_LowestReasonReported :
    (State.built { State.reset with life := .closed } = true) ∧
    (∀ row ∈ maskTable, (0xFF00000000000000 : OpWord).extractLsb' 56 8 ≠ row.2.1.extractLsb' 56 8) ∧
    ((∃ row ∈ maskTable, (0x0200000000000001 : OpWord).extractLsb' 56 8 = row.2.1.extractLsb' 56 8) ∧
      ∀ row ∈ maskTable, (0x0200000000000001 : OpWord) &&& row.2.2 ≠ row.2.1) ∧
    ∃ row ∈ maskTable, (0x0200000000000000 : OpWord) &&& row.2.2 = row.2.1 := by
  refine ⟨rfl, ?_, ?_, ?_⟩ <;> decide

/-- A word that decodes stands first, and a state with no input. -/
theorem witness_StepRunsDecodedOperation :
    (∃ s : State, s.built = true ∧ s.inputs = [.op 0x0200000000000000] ∧ decode 0x0200000000000000 = .ok .start) ∧
    State.reset.built = true ∧ State.reset.inputs = [] :=
  ⟨⟨{ State.reset with inputs := [.op 0x0200000000000000] }, rfl, rfl, rfl⟩, rfl, rfl⟩

/-- A CLOSED block that waits, and one that is reset. -/
theorem witness_OnlyResetLeavesClosed :
    (∃ s t : State, s.built = true ∧ s.life = .closed ∧ step s = .next t ∧ t.life = .closed) ∧
    ∃ s t : State, s.built = true ∧ s.life = .closed ∧ step s = .next t ∧ t.life = .opened :=
  ⟨⟨{ State.reset with life := .closed }, _, rfl, rfl, rfl, rfl⟩,
   ⟨{ State.reset with life := .closed, inputs := [.reset Config.default] }, _, rfl, rfl, rfl, rfl⟩⟩

theorem witness_NothingRunsBeforeReset : State.unbuilt.built = false := rfl

/-- A refusal with a REASON, and one without. -/
theorem witness_RefusalOnlyAnswers :
    (takeInput (.op 0x0000000000000000) State.reset = .refused .unassigned ∧ Refusal.reason .unassigned = some 1) ∧
    takeInput (.reset { Config.default with dioPin := 0 }) State.reset = .refused .badConfiguration ∧
      Refusal.reason .badConfiguration = none :=
  ⟨⟨rfl, rfl⟩, rfl, rfl⟩

/-- The three operations, and both levels. -/
theorem witness_AckBitIsTheSampledLevel :
    (∃ t, exec (.txByte 0x40) (drawing [.low]) = .next t ∧ t.results = [0x0100#16]) ∧
    (∃ t, exec (.sendCmd 0x40 true) (drawing [.high]) = .next t ∧ t.results = [0x0000#16]) ∧
    ∃ t, exec (.sendData 0x40 false) (drawing [.high]) = .next t ∧ t.results = [0x0000#16] :=
  ⟨⟨_, rfl, rfl⟩, ⟨_, rfl, rfl⟩, ⟨_, rfl, rfl⟩⟩

/-- The first and the last digit of a four-digit value. -/
theorem witness_SetIntShowsDecimalDigits :
    (1234 : Value) ≠ 0#32 ∧ 0 < digitsShown 1234 ∧ 3 < digitsShown 1234 ∧ ¬ 4 < digitsShown 0x80000000 := by decide

/-- The three branches of the packed decoder: zero, a digit present at the clamped index, and a digit beyond those present. -/
theorem witness_DecodePackedReadsDecimalDigit :
    State.reset.accepts ∧ State.reset.cod = .packedDecimal ∧
    (Nat.digits 10 1234)[min 255 3]? = some 1 ∧ (Nat.digits 10 12)[min 2 3]? = none :=
  ⟨⟨rfl, rfl⟩, rfl, by norm_num, by norm_num⟩

theorem witness_DecodeRawReadsByte :
    ∃ s : State, s.accepts ∧ s.cod = .rawByte := ⟨{ State.reset with cod := .rawByte }, ⟨rfl, rfl⟩, rfl⟩

theorem witness_DecoderValueLaws : (0 : Value).toNat < 10 ∧ (9 : Value).toNat < 10 ∧ ¬ (10 : Value).toNat < 10 := by decide

theorem witness_BrightnessLaws : Config.default.wf = true := by decide

/-- A reset that sends no frame, and one that sends two. -/
theorem witness_ResetSetsEverything :
    (∃ (c : Config) (s : State), c.wf = true ∧ s.inputs = [.reset c] ∧ c.initEmitsBrightness = false) ∧
    ∃ (c : Config) (s : State), c.wf = true ∧ s.inputs = [.reset c] ∧ c.initEmitsBrightness = true :=
  ⟨⟨Config.default, { State.reset with inputs := [.reset Config.default] }, by decide, rfl, rfl⟩,
   ⟨{ Config.default with initEmitsBrightness := true },
    { State.reset with inputs := [.reset { Config.default with initEmitsBrightness := true }] }, by decide, rfl, rfl⟩⟩

/-- One configuration for each of the three ways to break the constraints. -/
theorem witness_BadConfigurationRefused :
    (∃ c : Config, c.clkPin = c.dioPin) ∧ (∃ c : Config, c.cmdDispOn.extractLsb' 0 3 ≠ 0#3) ∧
    (∃ c : Config, c.cmdDispOff.extractLsb' 0 3 ≠ 0#3) ∧
    ∃ (c : Config) (s : State), s.inputs = [.reset c] ∧ c.clkPin = c.dioPin :=
  ⟨⟨{ Config.default with dioPin := 0 }, rfl⟩, ⟨{ Config.default with cmdDispOn := 0x8C }, by decide⟩,
   ⟨{ Config.default with cmdDispOff := 0x81 }, by decide⟩,
   ⟨{ Config.default with dioPin := 0 }, { State.reset with inputs := [.reset { Config.default with dioPin := 0 }] }, rfl, rfl⟩⟩

/-- EventCounts: an operation completes. -/
theorem witness_EventCounts : ∃ t, exec (.setBlank 1) State.reset = .next t := ⟨_, rfl⟩

/-- Each of the four registers changes under its writer. -/
theorem witness_RegistersHaveTheirWriters :
    (∃ t, exec (.setPower true) State.reset = .next t ∧ t.pwr ≠ State.reset.pwr) ∧
    (∃ t, exec (.setBright 255) State.reset = .next t ∧ t.brt ≠ State.reset.brt) ∧
    (∃ t, exec (.setCoding .rawByte) State.reset = .next t ∧ t.cod ≠ State.reset.cod) ∧
    ∃ t, exec .close State.reset = .next t ∧ t.life ≠ State.reset.life :=
  ⟨⟨_, rfl, by decide⟩, ⟨_, rfl, by decide⟩, ⟨_, rfl, by decide⟩, ⟨_, rfl, by decide⟩⟩

/-- A step with an input, one with none, and the two operations that append nothing. -/
theorem witness_TraceIsOnlyAppendedTo :
    (∃ s t : State, s.inputs ≠ [] ∧ step s = .next t) ∧ (∃ t, State.reset.inputs = [] ∧ step State.reset = .next t) ∧
    (∃ t, exec (.decode 5 0) State.reset = .next t) ∧ ∃ t, exec (.setCoding .rawByte) State.reset = .next t :=
  ⟨⟨{ State.reset with inputs := [.op 0x0200000000000000] }, _, by decide, rfl⟩, ⟨_, rfl, rfl⟩, ⟨_, rfl⟩, ⟨_, rfl⟩⟩

/-- NoOperationReadsBrtOrFrame, and AcknowledgementsChangeOnlyReports: an operation completes, and one that reports nothing. -/
theorem witness_completes :
    (∃ t, exec (.beginWrite 1) State.reset = .next t) ∧ (∃ t, exec .clear State.reset = .next t) ∧
      reportsAck .clear = false := ⟨⟨_, rfl⟩, ⟨_, rfl⟩, rfl⟩

/-- An operation for each clause. -/
theorem witness_CodingAndPowerHaveTheirReaders :
    ((∀ v k, Instr.setHours 7 true true ≠ .decode v k) ∧ (∀ n c, Instr.setHours 7 true true ≠ .setInt n c) ∧
      ∃ t, exec (.setHours 7 true true) State.reset = .next t) ∧
    (∀ l, Instr.setPower true ≠ .setBright l) ∧ ∃ t, exec (.setPower true) State.reset = .next t :=
  ⟨⟨nofun, nofun, ⟨_, rfl⟩⟩, nofun, ⟨_, rfl⟩⟩

theorem witness_ComposedOperationsKeepFraming :
    composed (.setInt 0xFFFFFFD6 false) = true ∧ ∃ t, exec (.setInt 0xFFFFFFD6 false) State.reset = .next t :=
  ⟨rfl, ⟨_, rfl⟩⟩

/-- With DIO high before, and straight after a START, with DIO low. -/
theorem witness_EveryStartIsAFallingEdge :
    Instr.beginWrite 1 ≠ .stop ∧ (State.reset.dioLvl = .high ∧ ∃ t, exec (.beginWrite 1) State.reset = .next t) ∧
    ∃ s t : State, s.dioLvl = .low ∧ exec (.beginWrite 1) s = .next t :=
  ⟨by decide, ⟨rfl, ⟨_, rfl⟩⟩, ⟨{ State.reset with dioLvl := .low, frame := .opened }, _, rfl, rfl⟩⟩

/-- Both lines high; CLK high and DIO low; CLK low. -/
theorem witness_StopOutsideFrameDrivesStart :
    (∃ s : State, s.accepts ∧ s.clkLvl = .high ∧ s.dioLvl = .high) ∧
    (∃ s : State, s.accepts ∧ s.clkLvl = .high ∧ s.dioLvl = .low) ∧ ∃ s : State, s.accepts ∧ s.clkLvl = .low :=
  ⟨⟨State.reset, ⟨rfl, rfl⟩, rfl, rfl⟩, ⟨{ State.reset with dioLvl := .low }, ⟨rfl, rfl⟩, rfl, rfl⟩,
   ⟨{ State.reset with clkLvl := .low }, ⟨rfl, rfl⟩, rfl⟩⟩

/-- A framed state with an open frame, and a step from it. -/
theorem witness_StepKeepsTraceFramed :
    ∃ s t : State, s.traceFramed ∧ s.frame = .opened ∧ step s = .next t :=
  ⟨{ startCond State.reset with inputs := [.op 0x0300000000000000] }, _, ⟨[.reset, .start], by decide⟩, rfl, rfl⟩

theorem witness_StepKeepsLines : ∃ s t : State, s.linesOk = true ∧ s.frame = .opened ∧ step s = .next t :=
  ⟨{ startCond State.reset with inputs := [.op 0x0300000000000000] }, _, by decide, rfl, rfl⟩

theorem witness_StepKeepsLatchesMirrorTrace : ∃ s t : State, s.latchesMirrorTrace ∧ step s = .next t :=
  ⟨{ startCond State.reset with inputs := [.op 0x0300000000000000] }, _, by
    refine ⟨?_, ?_, ?_, ?_⟩ <;> decide, rfl⟩

/-- A step from a CLOSED state with a result behind it. -/
theorem witness_StepKeepsConfigAndClosedOff :
    ∃ s t : State, (s.cfg.wf = true ∧ s.closedIsOff = true ∧ ∀ w ∈ s.results, resultCompleted w = true) ∧
      s.life = .closed ∧ step s = .next t :=
  ⟨{ State.reset with life := .closed, results := [0x0100#16] }, { State.reset with life := .closed, results := [0x0100#16] },
    ⟨by decide, by decide, by simp [resultCompleted]⟩, rfl, rfl⟩

/-- A hand-framed stream, composed operations around it, and a CLOSE at the end. -/
theorem witness_DisciplinedRunKeepsFraming :
    State.reset.accepts ∧ State.reset.frame = .idle ∧
    (∀ i ∈ [Instr.setPower true, .beginWrite 3, .sendData 0x5B false, .sendData 0x06 true, .close].dropLast, i ≠ .close) ∧
    disciplined State.reset.cfg [.setPower true, .beginWrite 3, .sendData 0x5B false, .sendData 0x06 true, .close] =
      true :=
  ⟨⟨rfl, rfl⟩, rfl, by decide, by decide⟩

/-- R11, G9: no reading of the display where a byte passes offset 5. -/
theorem test_displayReading_past_end :
    (displayReading Config.default [.start, ok 0x40, .start, ok 0xC5, ok 0x3F, .stop],
      displayReading Config.default [.start, ok 0x40, .start, ok 0xC5, ok 0x3F, ok 0x06, .stop]) =
      (some [none, none, none, none, none, some 0x3F], none) := by decide

/-- And what breaks the discipline: a byte outside a frame (R243 (a)), a stream past offset 5 (R249), and an empty stream (R243 (d)). -/
theorem test_undisciplined :
    [[Instr.txByte 0x40, .stop], [.beginWrite 6, .sendData 0 false, .sendData 0 true], [.beginWrite 1, .stop]].map
      (disciplined Config.default) = [false, false, false] := by decide

end Sys2Proof.Tests
end

/-! # Proofs about the state and the pin trace (`10_state.md`)

The reader of the trace inverts the wire encoding; every step keeps the pin levels and the latches' mirror of the trace; who writes and who
reads each register; the digit ROM; and the states before and after the first reset. -/

namespace Sys2Proof.Machine

open Sys2Proof

/-! ### The trace reads back (R30, R81 to R83) -/

/-- The bits of a byte in the order they are sent (R56). -/
def bitsOf (b : Byte) : List Bool := (List.range 8).map b.getLsbD

theorem testBit_foldr_bits (bits : List Bool) (i : Nat) :
    (bits.foldr (fun (v : Bool) n => v.toNat + 2 * n) 0).testBit i = bits.getD i false := by
  induction bits generalizing i with
  | nil => simp
  | cons v bits ih =>
    rw [List.foldr_cons, Nat.add_comm, ← Nat.bit_val]
    cases i with
    | zero => rw [Nat.testBit_bit_zero, List.getD_cons_zero]
    | succ i => rw [Nat.testBit_bit_succ, ih, List.getD_cons_succ]

theorem byteOfBits_bitsOf (b : Byte) : byteOfBits (bitsOf b) = b := by
  apply BitVec.eq_of_getLsbD_eq
  intro i hi
  rw [byteOfBits, BitVec.getLsbD_ofNat, testBit_foldr_bits, bitsOf]
  simp [List.getD_eq_getElem?_getD, hi]

theorem byteSlot_eq_flatMap (b : Byte) (l : Level) : byteSlot b l = (bitsOf b).flatMap bitSlot ++ ackSlot l := by
  simp [byteSlot, bitsOf, List.range_succ]

theorem readBit_bitSlot (v : Bool) (r : List PinEvent) : readBit (bitSlot v ++ r) = some (v, r) := by
  cases v <;> rfl

theorem readBits_flatMap_bitSlot (bits : List Bool) (r : List PinEvent) :
    readBits bits.length (bits.flatMap bitSlot ++ r) = some (bits, r) := by
  induction bits with
  | nil => rfl
  | cons v bits ih => simp [readBits, readBit_bitSlot, ih]

/-- A byte slot is the one item that begins with CLK low, so the reader comes to its last branch. -/
theorem readSlot_byteSlot (b : Byte) (l : Level) (r : List PinEvent) :
    readSlot (byteSlot b l ++ r) = some (.byte b l, r) := by
  have hbits : readBits 8 (byteSlot b l ++ r) = some (bitsOf b, ackSlot l ++ r) := by
    rw [byteSlot_eq_flatMap, List.append_assoc]
    exact readBits_flatMap_bitSlot (bitsOf b) (ackSlot l ++ r)
  obtain ⟨es, hes⟩ : ∃ es, byteSlot b l ++ r = .lvl .clk .low :: es := ⟨_, rfl⟩
  rw [hes] at hbits ⊢
  simp [readSlot, hbits, ackSlot, byteOfBits_bitsOf]

/-- The reader takes one item off the head of any trace that begins with it. -/
theorem readSlot_events (x : Slot) (r : List PinEvent) : readSlot (x.events ++ r) = some (x, r) := by
  cases x with
  | reset => rfl
  | start => rfl
  | stop => rfl
  | byte b l => exact readSlot_byteSlot b l r

theorem Slot.events_ne_nil (x : Slot) : x.events ≠ [] := by
  cases x <;> exact List.cons_ne_nil _ _

/-- With fuel for every item, reading gives the items back. -/
theorem readSlots_wireEvents (items : List Slot) (fuel : Nat) (h : items.length ≤ fuel) :
    readSlots fuel (wireEvents items) = some items := by
  induction items generalizing fuel with
  | nil => cases fuel <;> rfl
  | cons x items ih =>
    obtain ⟨n, rfl⟩ : ∃ n, fuel = n + 1 := ⟨fuel - 1, by simp at h; omega⟩
    obtain ⟨e, es, he⟩ := List.exists_cons_of_ne_nil x.events_ne_nil
    have hread : readSlot (e :: (es ++ wireEvents items)) = some (x, wireEvents items) := by
      rw [← List.cons_append, ← he]
      exact readSlot_events x _
    rw [wireEvents_cons, he, List.cons_append, readSlots, hread]
    simp [ih n (by simpa using h)]

/-- No item is empty, so a trace is at least as long as its items are many. -/
theorem length_le_length_wireEvents (items : List Slot) : items.length ≤ (wireEvents items).length := by
  induction items with
  | nil => exact Nat.le_refl 0
  | cons x items ih =>
    have hx : 0 < x.events.length := List.length_pos_iff.mpr x.events_ne_nil
    rw [wireEvents_cons, List.length_append, List.length_cons]
    omega

/-- Settles O50: the reader takes each item off the head of the trace, and the trace's length is fuel enough. -/
theorem traceReadsBack : Obligations.TraceReadsBack := by
  unfold Obligations.TraceReadsBack
  intro items
  exact readSlots_wireEvents items _ (length_le_length_wireEvents items)

/-! ### One step, packaged

What every operation, every reset and every change of the host's list keeps, every step keeps. -/

theorem step_keeps {P : State → Prop} (hinputs : ∀ s rest, P s → P { s with inputs := rest })
    (hexec : ∀ i s t, Does i s t → P s → P t) (hreset : ∀ c s, P s → P (applyReset c s)) {s t : State} (hs : P s)
    (h : step s = .next t) : P t := by
  obtain ⟨-, rfl⟩ | ⟨-, rest, i, -, -, -, hi⟩ | ⟨c, rest, -, -, rfl⟩ := step_next h
  · exact hs
  · exact hexec i _ t (exec_next hi) (hinputs s rest hs)
  · exact hreset c _ (hinputs s rest hs)

/-! ### The pin levels (R36) -/

/-- The pairs (CLK_LVL, DIO_LVL) R36 lists, with the FRAME each asks for. -/
def linesFit : Frame → Level × Level → Bool
  | _, (.low, .high) => true
  | f, (.high, .high) => f == .idle
  | f, (.high, .low) => f == .opened
  | _, (.low, .low) => false

theorem linesOk_iff (s : State) :
    s.linesOk = true ↔ s.clkDir = .output ∧ s.dioDir = .output ∧ linesFit s.frame (s.clkLvl, s.dioLvl) = true := by
  rcases hc : s.clkLvl with _ | _ <;> rcases hd : s.dioLvl with _ | _ <;>
    simp [State.linesOk, linesFit, hc, hd, and_assoc]

/-- Each item leaves one of R36's pairs, with the FRAME that goes with it. -/
theorem linesFit_after (items : List Slot) (f : Frame) (x : Level × Level) (h : linesFit f x = true) :
    linesFit (frameAfter f items) (linesAfter x items) = true := by
  induction items generalizing f x with
  | nil => exact h
  | cons y items ih =>
    cases y with
    | reset => exact ih .idle (.high, .high) rfl
    | start => exact ih .opened (.high, .low) rfl
    | stop => exact ih .idle (.high, .high) rfl
    | byte b l => exact ih f (.low, .high) rfl

theorem Wired.keeps_linesOk {s t : State} {items : List Slot} (h : Wired s t items) (hs : s.linesOk = true) :
    t.linesOk = true := by
  rw [linesOk_iff] at hs ⊢
  obtain ⟨hclk, hdio, hfit⟩ := hs
  refine ⟨h.clkDir.trans hclk, ?_, ?_⟩
  · rw [h.dioDir, hdio, ite_self]
  · rw [h.frame, h.lines]
    exact linesFit_after items _ _ hfit

theorem applyReset_linesOk (c : Config) (s : State) : (applyReset c s).linesOk = true := by
  obtain ⟨items, -, -, hframe, hlines, -, hclk, hdio⟩ := applyReset_wire c s
  rw [linesOk_iff, hframe, hlines]
  exact ⟨hclk, hdio, linesFit_after items .idle (.high, .high) rfl⟩

/-- Settles O52: every operation moves the wire by whole items, and each item leaves one of R36's pairs. -/
theorem stepKeepsLines : Obligations.StepKeepsLines := by
  unfold Obligations.StepKeepsLines
  intro s t hs h
  exact step_keeps (P := fun u => u.linesOk = true) (fun _ _ hu => hu) (fun _ _ _ hd => hd.1.keeps_linesOk)
    (fun c u _ => applyReset_linesOk c u) hs h

/-! ### The latches mirror the trace (R28) -/

theorem lastLevel_append (p : Pin) (l : Level) (a b : List PinEvent) :
    lastLevel p l (a ++ b) = lastLevel p (lastLevel p l a) b := by
  induction a generalizing l with
  | nil => rfl
  | cons e a ih => cases e <;> simp [lastLevel, ih]

theorem lastDir_append (p : Pin) (d : Direction) (a b : List PinEvent) :
    lastDir p d (a ++ b) = lastDir p (lastDir p d a) b := by
  induction a generalizing d with
  | nil => rfl
  | cons e a ih => cases e <;> simp [lastDir, ih]

/-- The levels the events of a run of items set last are the levels those items leave. -/
theorem lastLevel_wireEvents (x : Level × Level) (items : List Slot) :
    linesAfter x items =
      (lastLevel .clk x.1 (wireEvents items), lastLevel .dio x.2 (wireEvents items)) := by
  induction items generalizing x with
  | nil => rfl
  | cons y items ih =>
    have hy : linesAfter x [y] = (lastLevel .clk x.1 y.events, lastLevel .dio x.2 y.events) := by
      cases y <;> rfl
    rw [wireEvents_cons, lastLevel_append, lastLevel_append, ← List.singleton_append, linesAfter_append, ih, hy]

/-- Only a reset sets CLK's direction. -/
theorem lastDir_clk_wireEvents (d : Direction) (items : List Slot) (h : Slot.reset ∉ items) :
    lastDir .clk d (wireEvents items) = d := by
  induction items with
  | nil => rfl
  | cons y items ih =>
    have hy : lastDir .clk d y.events = d := by
      cases y with
      | reset => exact absurd List.mem_cons_self h
      | start | stop | byte => rfl
    rw [wireEvents_cons, lastDir_append, hy]
    exact ih fun hm => h (List.mem_cons_of_mem y hm)

/-- A byte slot leaves DIO an output, and no other item but a reset sets its direction. -/
theorem lastDir_dio_wireEvents (d : Direction) (items : List Slot) (h : Slot.reset ∉ items) :
    lastDir .dio d (wireEvents items) = if byteCount items = 0 then d else .output := by
  induction items generalizing d with
  | nil => rfl
  | cons y items ih =>
    have hrest := fun e => ih e fun hm => h (List.mem_cons_of_mem y hm)
    rw [wireEvents_cons, lastDir_append, hrest]
    cases y with
    | reset => exact absurd List.mem_cons_self h
    | start | stop => rfl
    | byte b l =>
      have hb : lastDir .dio d (Slot.byte b l).events = .output := rfl
      simp [byteCount, hb]

/-- What a run of events does to a latch: nothing, or it sets one value whatever stood there. -/
def Latching {α : Type} (f : α → α) : Prop := (∀ x, f x = x) ∨ ∃ m, ∀ x, f x = m

theorem lastLevel_latching (p : Pin) (es : List PinEvent) : Latching fun l => lastLevel p l es := by
  induction es with
  | nil => exact .inl fun _ => rfl
  | cons e es ih =>
    cases e with
    | lvl q m =>
      by_cases hq : q = p
      · exact .inr ⟨lastLevel p m es, fun l => by simp [lastLevel, hq]⟩
      · simpa [lastLevel, hq] using ih
    | dir _ _ | rd _ _ => exact ih

theorem lastDir_latching (p : Pin) (es : List PinEvent) : Latching fun d => lastDir p d es := by
  induction es with
  | nil => exact .inl fun _ => rfl
  | cons e es ih =>
    cases e with
    | dir q m =>
      by_cases hq : q = p
      · exact .inr ⟨lastDir p m es, fun d => by simp [lastDir, hq]⟩
      · simpa [lastDir, hq] using ih
    | lvl _ _ | rd _ _ => exact ih

/-- A latch that mirrors a run `f` still mirrors it with a further run `g` after it. -/
theorem Latching.mirror {α : Type} {f g : α → α} (hf : Latching f) (hg : Latching g) {x : α} (hx : x = f x) :
    g x = g (f (g x)) := by
  obtain hf | ⟨m, hf⟩ := hf
  · obtain hg | ⟨n, hg⟩ := hg
    · rw [hf, hg, hg]
    · rw [hg, hg]
  · rw [hf (g x), ← hf x, ← hx]

/-- Events appended, and each latch set as they set it last, keep the latches a mirror of the trace. -/
theorem latchesMirrorTrace_append {s t : State} {es : List PinEvent} (hs : s.latchesMirrorTrace)
    (htrace : t.trace = s.trace ++ es)
    (hlines : (t.clkLvl, t.dioLvl) = (lastLevel .clk s.clkLvl es, lastLevel .dio s.dioLvl es))
    (hclk : t.clkDir = lastDir .clk s.clkDir es) (hdio : t.dioDir = lastDir .dio s.dioDir es) :
    t.latchesMirrorTrace := by
  obtain ⟨sclkLvl, sdioLvl, sclkDir, sdioDir⟩ := hs
  obtain ⟨hclkLvl, hdioLvl⟩ := Prod.mk.inj hlines
  simp only [State.latchesMirrorTrace, htrace, lastLevel_append, lastDir_append, hclkLvl, hdioLvl, hclk, hdio]
  exact ⟨(lastLevel_latching .clk s.trace).mirror (lastLevel_latching .clk es) sclkLvl,
    (lastLevel_latching .dio s.trace).mirror (lastLevel_latching .dio es) sdioLvl,
    (lastDir_latching .clk s.trace).mirror (lastDir_latching .clk es) sclkDir,
    (lastDir_latching .dio s.trace).mirror (lastDir_latching .dio es) sdioDir⟩

theorem Wired.keeps_latchesMirrorTrace {s t : State} {items : List Slot} (h : Wired s t items)
    (hs : s.latchesMirrorTrace) : t.latchesMirrorTrace :=
  latchesMirrorTrace_append hs h.trace (h.lines.trans (lastLevel_wireEvents _ items))
    (h.clkDir.trans (lastDir_clk_wireEvents _ items h.noReset).symm)
    (h.dioDir.trans (lastDir_dio_wireEvents _ items h.noReset).symm)

theorem applyReset_keeps_latchesMirrorTrace (c : Config) (s : State) (hs : s.latchesMirrorTrace) :
    (applyReset c s).latchesMirrorTrace := by
  obtain ⟨items, hr, htrace, -, hlines, -, hclk, hdio⟩ := applyReset_wire c s
  refine latchesMirrorTrace_append hs htrace ?_ ?_ ?_
  · exact hlines.trans (lastLevel_wireEvents (s.clkLvl, s.dioLvl) (.reset :: items))
  · exact hclk.trans (lastDir_clk_wireEvents .output items hr).symm
  · refine hdio.trans (((lastDir_dio_wireEvents .output items hr).trans ?_).symm)
    exact ite_self _

/-- Settles O53: a latch after a step is the last value the step's events set, or the value that stood there. -/
theorem stepKeepsLatchesMirrorTrace : Obligations.StepKeepsLatchesMirrorTrace := by
  unfold Obligations.StepKeepsLatchesMirrorTrace
  intro s t hs h
  exact step_keeps (P := State.latchesMirrorTrace) (fun _ _ hu => hu) (fun _ _ _ hd => hd.1.keeps_latchesMirrorTrace)
    applyReset_keeps_latchesMirrorTrace hs h

/-! ### The digit decoder (R170 to R174) -/

theorem rom_mem_romBytes {n : Nat} (h : n < 10) : rom n ∈ romBytes := by
  rw [rom, List.getD_eq_getElem _ _ h]
  exact List.getElem_mem h

/-- Packed decode gives the blank byte or a byte of the ROM. -/
theorem decP_blank_or_rom (v : Value) (i : Byte) : decP v i = blankByte ∨ decP v i ∈ romBytes := by
  unfold decP
  extract_lets d
  split
  · exact .inr (rom_mem_romBytes (by decide))
  · split
    · exact .inl rfl
    · exact .inr (rom_mem_romBytes (Nat.mod_lt _ (by decide)))

theorem decP_zero (i : Byte) : decP 0#32 i = rom 0 := by
  simp [decP]

theorem decP_of_lt_ten {v : Value} (h : v.toNat < 10) : decP v 0#8 = rom v.toNat := by
  by_cases hv : v = 0#32
  · subst hv
    exact decP_zero 0#8
  · have hpos : v.toNat ≠ 0 := fun h0 => hv (BitVec.eq_of_toNat_eq h0)
    simp [decP, clampIdx, hv, hpos, Nat.mod_eq_of_lt h]

/-- No segment byte has the colon bit (R174). -/
theorem getLsbD_seven_of_blank_or_rom {b : Byte} (h : b = blankByte ∨ b ∈ romBytes) : b.getLsbD 7 = false := by
  have hrom : ∀ b ∈ romBytes, b.getLsbD 7 = false := by decide
  obtain rfl | h := h
  · rfl
  · exact hrom b h

theorem clampIdx_le_three (i : Byte) : clampIdx i ≤ 3 := by
  unfold clampIdx
  split <;> omega

/-- A byte put at the clamped index is read back by raw decode (R172). -/
theorem decR_shiftLeft (b i : Byte) : decR (b.setWidth 32 <<< (8 * clampIdx i)) i = b := by
  have hi := clampIdx_le_three i
  apply BitVec.eq_of_getLsbD_eq
  intro k hk
  have hlt : 8 * clampIdx i + k < 32 := by omega
  simp [decR, hk, hlt, Nat.lt_trans hk]

/-- Settles O32: the digits below ten and the byte at each index, from the laws of the two decoders. -/
theorem decoderValueLaws : Obligations.DecoderValueLaws := by
  unfold Obligations.DecoderValueLaws
  refine ⟨?_, rfl, fun v h => decP_of_lt_ten h, fun i => decP_zero i, fun v i => ?_,
    fun b i => ⟨_, decR_shiftLeft b i⟩⟩
  · have hdec : ∀ n ∈ List.range 10, decP (BitVec.ofNat 32 n) 0#8 = rom n := by
      intro n hn
      have h10 : n < 10 := List.mem_range.mp hn
      have hv : (BitVec.ofNat 32 n).toNat = n := Nat.mod_eq_of_lt (by omega)
      rw [decP_of_lt_ten (by omega), hv]
    rw [List.map_congr_left hdec]
    rfl
  · exact ⟨decP_blank_or_rom v i, getLsbD_seven_of_blank_or_rom (decP_blank_or_rom v i)⟩

/-! ### What an operation writes (R22, R30 to R32) -/

/-- Settles O41: the wire's inversion gives the fields no operation writes, the registers' the writers. -/
theorem registersHaveTheirWriters : Obligations.RegistersHaveTheirWriters := by
  unfold Obligations.RegistersHaveTheirWriters
  intro i s t h
  obtain ⟨wire, registers⟩ := exec_next h
  obtain ⟨hpwr, hbrt, hcod, hlife, hresults⟩ := registers
  refine ⟨wire.cfg, wire.built, wire.inputs, wire.clkDir, ?_, ?_, ?_, ?_, ⟨_, wire.trace.symm⟩, _, hresults⟩
  · rw [hpwr]
    cases i <;> simp
  · rw [hbrt]
    cases i <;> simp
  · rw [hcod]
    cases i <;> simp
  · rw [hlife]
    cases i <;> simp

/-! ### The trace only grows (R30, R231) -/

theorem applyReset_prefix (c : Config) (s : State) : s.trace <+: (applyReset c s).trace := by
  obtain ⟨items, -, htrace, -⟩ := applyReset_wire c s
  exact ⟨_, htrace.symm⟩

/-- An operation that has no items appends no event and takes no sample. -/
theorem Wired.unchanged_of_nil {s t : State} (h : Wired s t []) : t.trace = s.trace ∧ t.drawn = s.drawn :=
  ⟨h.trace.trans (List.append_nil _), h.drawn⟩

/-- A step with no input waits (R230). -/
theorem step_of_no_inputs {s t : State} (hi : s.inputs = []) (h : step s = .next t) : t = s := by
  obtain ⟨-, rfl⟩ | ⟨w, rest, i, hcons, -⟩ | ⟨c, rest, hcons, -⟩ := step_next h
  · rfl
  · exact absurd (hi.symm.trans hcons) (List.cons_ne_nil _ _).symm
  · exact absurd (hi.symm.trans hcons) (List.cons_ne_nil _ _).symm

/-- Settles O42: operations and resets append their items, and DECODE and SET_CODING have none. -/
theorem traceIsOnlyAppendedTo : Obligations.TraceIsOnlyAppendedTo := by
  unfold Obligations.TraceIsOnlyAppendedTo
  refine ⟨fun s t h => ?_, fun s t hi h => by rw [step_of_no_inputs hi h], fun i s t hi h => ?_⟩
  · exact step_keeps (P := fun u => s.trace <+: u.trace) (fun _ _ hu => hu)
      (fun _ _ _ hd hu => hu.trans ⟨_, hd.1.trace.symm⟩) (fun c u hu => hu.trans (applyReset_prefix c u))
      (List.prefix_refl _) h
  · obtain ⟨v, k, rfl⟩ | ⟨m, rfl⟩ := hi
    · exact (exec_next h).1.unchanged_of_nil
    · exact (exec_next h).1.unchanged_of_nil

/-! ### What an operation reads (R22, R24, R29, R147) -/

/-- The operations that read COD (R22). -/
def ReadsCod (i : Instr) : Prop := (∃ v k, i = .decode v k) ∨ ∃ n c, i = .setInt n c

/-- The operation that reads PWR (R22). -/
def ReadsPwr (i : Instr) : Prop := ∃ l, i = .setBright l

/-- `s` with other values in the four fields that no operation, or few, read. -/
def State.withRegisters (s : State) (p : Bool) (x : BitVec 3) (m : Coding) (f : Frame) : State :=
  { s with pwr := p, brt := x, cod := m, frame := f }

theorem itemsOf_withRegisters (i : Instr) (s : State) (p : Bool) (x : BitVec 3) (m : Coding) (f : Frame)
    (hm : ReadsCod i → m = s.cod) (hp : ReadsPwr i → p = s.pwr) :
    itemsOf i (s.withRegisters p x m f) = itemsOf i s := by
  cases i with
  | setInt n colon =>
    obtain rfl := hm (.inr ⟨n, colon, rfl⟩)
    exact writesSlots_of_dropped (s := s) (t := s.withRegisters p x s.cod f) (n := 0) rfl rfl rfl 0 _
  | setBright l =>
    obtain rfl := hp ⟨l, rfl⟩
    rfl
  | _ => rfl

theorem resultOf_withRegisters (i : Instr) (s : State) (p : Bool) (x : BitVec 3) (m : Coding) (f : Frame)
    (hm : ReadsCod i → m = s.cod) : resultOf i (s.withRegisters p x m f) = resultOf i s := by
  cases i with
  | decode v k =>
    obtain rfl := hm (.inl ⟨v, k, rfl⟩)
    rfl
  | _ => rfl

/-- A register that starts the same in two runs of an operation ends the same. -/
theorem Registered.agree {i : Instr} {s t s' t' : State} (r' : Registered i s' t') (r : Registered i s t) :
    (s'.pwr = s.pwr → t'.pwr = t.pwr) ∧ (s'.brt = s.brt → t'.brt = t.brt) ∧ (s'.cod = s.cod → t'.cod = t.cod) ∧
      (s'.life = s.life → t'.life = t.life) := by
  refine ⟨fun e => ?_, fun e => ?_, fun e => ?_, fun e => ?_⟩
  · rw [r'.pwr, r.pwr, e]
  · rw [r'.brt, r.brt, e]
    cases i <;> rfl
  · rw [r'.cod, r.cod, e]
    cases i <;> rfl
  · rw [r'.life, r.life, e]
    cases i <;> rfl

/-- With other values in PWR, BRT, COD and FRAME, where it reads neither PWR nor COD if they differ, an operation does the same
in every other field; and each of the four fields that started the same ends the same. -/
theorem exec_withRegisters {i : Instr} {s t : State} (h : exec i s = .next t) (p : Bool) (x : BitVec 3) (m : Coding) (f : Frame)
    (hm : ReadsCod i → m = s.cod) (hp : ReadsPwr i → p = s.pwr) :
    ∃ t', exec i (s.withRegisters p x m f) = .next t' ∧ t'.withRegisters t.pwr t.brt t.cod t.frame = t ∧
      (p = s.pwr → t'.pwr = t.pwr) ∧ (x = s.brt → t'.brt = t.brt) ∧ (m = s.cod → t'.cod = t.cod) ∧
      (f = s.frame → t'.frame = t.frame) := by
  have ha : s.accepts := exec_next_accepts h
  obtain ⟨t', h'⟩ := exec_completes i (s := s.withRegisters p x m f) ha
  obtain ⟨w, r⟩ := exec_next h
  obtain ⟨w', r'⟩ := exec_next h'
  rw [itemsOf_withRegisters i s p x m f hm hp] at w'
  have hlines := Prod.mk.inj (w'.lines.trans w.lines.symm)
  have hresults := r'.results
  rw [resultOf_withRegisters i s p x m f hm] at hresults
  obtain ⟨hpwr, hbrt, hcod, hlife⟩ := r'.agree r
  refine ⟨t', h', ?_, hpwr, hbrt, hcod, fun e => ?_⟩
  · exact State.ext_fields (w'.cfg.trans w.cfg.symm) rfl rfl rfl hlines.1 (w'.clkDir.trans w.clkDir.symm) hlines.2
      (w'.dioDir.trans w.dioDir.symm) rfl (hlife rfl) (w'.trace.trans w.trace.symm) (w'.built.trans w.built.symm)
      (w'.inputs.trans w.inputs.symm) (hresults.trans r.results.symm) (w'.draws.trans w.draws.symm)
      (w'.drawn.trans w.drawn.symm)
  · obtain rfl := e
    exact w'.frame.trans w.frame.symm

/-- Settles O43: no operation's items, result or registers depend on BRT or FRAME. -/
theorem noOperationReadsBrtOrFrame : Obligations.NoOperationReadsBrtOrFrame := by
  unfold Obligations.NoOperationReadsBrtOrFrame
  intro i s t x f h
  obtain ⟨t', h', hsame, hpwr, -, hcod, -⟩ := exec_withRegisters h s.pwr x s.cod f (fun _ => rfl) (fun _ => rfl)
  refine ⟨t', h', ?_⟩
  rw [← hpwr rfl, ← hcod rfl] at hsame
  exact hsame

/-- Settles O44: the items and the result depend on COD in DECODE and SET_INT alone, and on PWR in SET_BRIGHT alone. -/
theorem codingAndPowerHaveTheirReaders : Obligations.CodingAndPowerHaveTheirReaders := by
  unfold Obligations.CodingAndPowerHaveTheirReaders
  constructor
  · intro i s t m hdecode hsetInt h
    have hreads : ReadsCod i → m = s.cod := by
      rintro (⟨v, k, hi⟩ | ⟨n, c, hi⟩)
      · exact absurd hi (hdecode v k)
      · exact absurd hi (hsetInt n c)
    obtain ⟨t', h', hsame, hpwr, hbrt, -, hframe⟩ := exec_withRegisters h s.pwr s.brt m s.frame hreads (fun _ => rfl)
    refine ⟨t', h', ?_⟩
    rw [← hpwr rfl, ← hbrt rfl, ← hframe rfl] at hsame
    exact hsame
  · intro i s t p hsetBright h
    have hreads : ReadsPwr i → p = s.pwr := by
      rintro ⟨l, hi⟩
      exact absurd hi (hsetBright l)
    obtain ⟨t', h', hsame, -, hbrt, hcod, hframe⟩ := exec_withRegisters h p s.brt s.cod s.frame (fun _ => rfl) hreads
    refine ⟨t', h', ?_⟩
    rw [← hbrt rfl, ← hcod rfl, ← hframe rfl] at hsame
    exact hsame

/-! ### Before and at the first reset (R35, R230) -/

theorem whenOpen_of_not_built {s : State} (h : s.built = false) (e : State → State) :
    whenOpen s e = .refused .beforeReset := by
  simp [whenOpen, h]

/-- Settles O12: every operation and every word first asks whether the block has been reset. -/
theorem nothingRunsBeforeReset : Obligations.NothingRunsBeforeReset := by
  unfold Obligations.NothingRunsBeforeReset
  refine ⟨fun i s h => ?_, fun w s h => by simp [present, h]⟩
  obtain ⟨e, he⟩ := exec_eq_whenOpen i
  rw [he, whenOpen_of_not_built h]

/-- Settles O38, by evaluating the step. -/
theorem resetStateIsFirstReset : Obligations.ResetStateIsFirstReset := by
  unfold Obligations.ResetStateIsFirstReset
  rfl

/-- Settles O55: the reset state's trace is the one item of the pin priming. -/
theorem resetMeetsInvariants : Obligations.ResetMeetsInvariants := by
  unfold Obligations.ResetMeetsInvariants
  refine ⟨⟨[.reset], rfl, rfl, rfl, rfl⟩, rfl, ⟨rfl, rfl, rfl, rfl⟩, rfl, rfl, ?_⟩
  exact fun w hw => absurd hw List.not_mem_nil

end Sys2Proof.Machine

/-! # Proofs about the display memory (`20_memory.md`)

The arithmetic of a position (R53, R54), then how `memWritesFrom` reads one write frame followed by any other items, so that the
readings of several frames can be put together. -/

namespace Sys2Proof.Machine

open Sys2Proof

/-! ### Positions and addresses (R53, R54) -/

theorem sat_toNat (p : Byte) : (sat p).toNat = if p.toNat < 1 then 1 else if p.toNat > 6 then 6 else p.toNat := by
  unfold sat
  simp only [BitVec.lt_def, gt_iff_lt, BitVec.reduceToNat]
  split
  · rfl
  · split <;> rfl

theorem sat_toNat_range (p : Byte) : 1 ≤ (sat p).toNat ∧ (sat p).toNat ≤ 6 := by
  rw [sat_toNat]
  split_ifs <;> omega

/-- The offset of a saturated position does not wrap. -/
theorem sat_sub_one_toNat (p : Byte) : (sat p - 1#8).toNat = (sat p).toNat - 1 := by
  have := sat_toNat_range p
  bv_omega

theorem addr_sat_toNat (c : Config) (p : Byte) :
    (addr c (sat p)).toNat = (c.cmdAddrBase.toNat + ((sat p).toNat - 1)) % 256 := by
  rw [addr, BitVec.toNat_add, sat_sub_one_toNat]

/-- The offset read off an address command is the position's, even where the command byte wrapped at 256. -/
theorem addr_sat_sub_base_toNat (c : Config) (p : Byte) :
    (addr c (sat p) - c.cmdAddrBase).toNat = (sat p).toNat - 1 := by
  rw [addr, BitVec.add_comm, BitVec.add_sub_cancel, sat_sub_one_toNat]

/-! ### The reading of a write frame (R11, R53) -/

/-- The data bytes of a frame, up to its STOP, count up from the frame's offset. -/
theorem memWritesFrom_bytesFrom_stop (c : Config) (s : State) (r : List Slot) (bs : List Byte) (k a : Nat) :
    memWritesFrom c false (some a) (bytesFrom s k bs ++ .stop :: r) =
      (bs.zipIdx a).map Prod.swap ++ memWritesFrom c false none r := by
  induction bs generalizing k a with
  | nil => rfl
  | cons b bs ih => simp [bytesFrom, memWritesFrom, ih]

/-- The mode command is read as no write, and the address command sets the offset of its position. -/
theorem memWritesFrom_beginSlots (s : State) (k : Nat) (p : Byte) (first : Bool) (off : Option Nat) (r : List Slot) :
    memWritesFrom s.cfg first off (beginSlots s k p ++ r) = memWritesFrom s.cfg false (some ((sat p).toNat - 1)) r := by
  have hlt : (sat p).toNat - 1 < nposPhys := by
    have := sat_toNat_range p
    simp only [nposPhys]
    omega
  simp only [beginSlots, List.cons_append, List.nil_append, memWritesFrom, addr_sat_sub_base_toNat, if_pos hlt]

/-- A write frame, whatever was read before it and whatever follows. -/
theorem memWritesFrom_writeSlots (s : State) (k : Nat) (p : Byte) (bs : List Byte) (first : Bool) (off : Option Nat)
    (r : List Slot) :
    memWritesFrom s.cfg first off (writeSlots s k p bs ++ r) =
      (bs.zipIdx ((sat p).toNat - 1)).map Prod.swap ++ memWritesFrom s.cfg false none r := by
  rw [writeSlots, List.append_assoc, List.append_assoc, memWritesFrom_beginSlots, List.singleton_append,
    memWritesFrom_bytesFrom_stop]

theorem memWrites_writeSlots (s : State) (k : Nat) (p : Byte) (bs : List Byte) :
    memWrites s.cfg (writeSlots s k p bs) = (bs.zipIdx ((sat p).toNat - 1)).map Prod.swap := by
  simpa [memWrites, memWritesFrom] using memWritesFrom_writeSlots s k p bs false none []

/-- Settles O29: the position saturates, its address wraps, and the frame's bytes are read from its offset upwards. -/
theorem streamsLandAtConsecutiveOffsets : Obligations.StreamsLandAtConsecutiveOffsets := by
  unfold Obligations.StreamsLandAtConsecutiveOffsets
  intro c p s k bs
  refine ⟨sat_toNat p, addr_sat_toNat c p, ?_⟩
  rw [memWrites_writeSlots, List.zipIdx_eq_map_add, List.map_map]
  rfl

end Sys2Proof.Machine

/-! # Proofs about the encoding (`30_encoding.md`)

A row of the opcode map (R73) accepts a word by its code and the bits it leaves unused; that row's mask and match (R74) say the same; and
no two rows share a code. The decoder's answers, the port's refusals and the table of patterns all follow from these. -/

namespace Sys2Proof

/-! ### Decoding and encoding (R71 to R75) -/

/-- The fields of each operation decode to it, from the law of its constructor. -/
theorem decodeFields_fields (i : Instr) : decodeFields i.fields = .ok i := by
  cases i with
  | txByte b => exact (Laws.FieldsRoundTrip.txByte b).1
  | start => exact Laws.FieldsRoundTrip.start.1
  | stop => exact Laws.FieldsRoundTrip.stop.1
  | sendCmd c st => exact (Laws.FieldsRoundTrip.sendCmd c st).1
  | sendData b st => exact (Laws.FieldsRoundTrip.sendData b st).1
  | beginWrite p => exact (Laws.FieldsRoundTrip.beginWrite p).1
  | clear => exact Laws.FieldsRoundTrip.clear.1
  | setBlank p => exact (Laws.FieldsRoundTrip.setBlank p).1
  | testAll => exact Laws.FieldsRoundTrip.testAll.1
  | setInt n c => exact (Laws.FieldsRoundTrip.setInt n c).1
  | setHours v c z => exact (Laws.FieldsRoundTrip.setHours v c z).1
  | setMinutes v z => exact (Laws.FieldsRoundTrip.setMinutes v z).1
  | close => exact Laws.FieldsRoundTrip.close.1
  | decode v k => exact (Laws.FieldsRoundTrip.decode v k).1
  | setCoding m => exact (Laws.FieldsRoundTrip.setCoding m).1
  | setPower on => exact (Laws.FieldsRoundTrip.setPower on).1
  | setBright l => exact (Laws.FieldsRoundTrip.setBright l).1

theorem decode_encode (i : Instr) : decode (encode i) = .ok i :=
  (decode_encode_fields i).trans (decodeFields_fields i)

/-- Settles O1: the fields survive the word, and each operation's fields decode to it. -/
theorem decodeInvertsEncode : Obligations.DecodeInvertsEncode := by
  unfold Obligations.DecodeInvertsEncode
  exact decode_encode

/-- A row accepts a word: the word has its code, and a 0 in every bit it leaves unused. -/
def Row.Accepts (r : Row) (w : OpWord) : Prop :=
  r.opc = (Fields.ofWord w).opc ∧ r.reservedClear (Fields.ofWord w) = true

/-- The fields a row accepts are those of the operation it makes of them: the row loses none. -/
theorem fields_build {r : Row} (hr : r ∈ rows) {f : Fields} (ho : r.opc = f.opc) (hc : r.reservedClear f = true) :
    (r.build f).fields = f := by
  obtain ⟨opc, rsv, a, fr, f1, f0, v⟩ := f
  have hall : ∀ r ∈ rows, r.opc = opc → r.reservedClear ⟨opc, rsv, a, fr, f1, f0, v⟩ = true →
      (r.build ⟨opc, rsv, a, fr, f1, f0, v⟩).fields = ⟨opc, rsv, a, fr, f1, f0, v⟩ := by
    simp +contextual [rows, Row.reservedClear, Instr.fields, Coding.toBit_ofBit]
  exact hall r hr ho hc

/-- No two rows have one code (R73). -/
theorem rows_opc_nodup : (rows.map Row.opc).Nodup := by decide

theorem row_eq_of_opc_eq {r q : Row} (hr : r ∈ rows) (hq : q ∈ rows) (h : r.opc = q.opc) : r = q :=
  List.inj_on_of_nodup_map rows_opc_nodup hr hq h

/-- What the decoder answers to a word with a row's code. -/
theorem decode_of_opc {r : Row} (hr : r ∈ rows) {w : OpWord} (ho : r.opc = (Fields.ofWord w).opc) :
    decode w = if r.reservedClear (Fields.ofWord w) then .ok (r.build (Fields.ofWord w)) else .error .reserved := by
  obtain ⟨hnone, -⟩ | ⟨q, hq, hqo, hans⟩ := decodeFields_cases (Fields.ofWord w)
  · exact absurd ho (by simpa using List.find?_eq_none.mp hnone r hr)
  · obtain rfl := row_eq_of_opc_eq hr hq (ho.trans hqo.symm)
    obtain ⟨hc, hd⟩ | ⟨hc, hd⟩ := hans
    · simp [decode, hc, hd]
    · simp [decode, hc, hd]

/-- A word decodes exactly when a row accepts it, to what that row makes. -/
theorem decode_ok_iff {w : OpWord} {i : Instr} :
    decode w = .ok i ↔ ∃ r ∈ rows, r.Accepts w ∧ r.build (Fields.ofWord w) = i := by
  constructor
  · intro h
    obtain ⟨-, hd⟩ | ⟨r, hr, ho, ⟨hc, hd⟩ | ⟨-, hd⟩⟩ := decodeFields_cases (Fields.ofWord w)
    · exact absurd (hd.symm.trans h) (by simp)
    · exact ⟨r, hr, ⟨ho, hc⟩, Except.ok.inj (hd.symm.trans h)⟩
    · exact absurd (hd.symm.trans h) (by simp)
  · rintro ⟨r, hr, ⟨ho, hc⟩, rfl⟩
    rw [decode_of_opc hr ho, if_pos hc]

/-- A word is refused as unassigned exactly when no row has its code (R77). -/
theorem decode_unassigned_iff {w : OpWord} :
    decode w = .error .unassigned ↔ ∀ r ∈ rows, r.opc ≠ (Fields.ofWord w).opc := by
  constructor
  · intro h r hr ho
    rw [decode_of_opc hr ho] at h
    split at h <;> cases h
  · intro h
    obtain ⟨-, hd⟩ | ⟨r, hr, ho, -⟩ := decodeFields_cases (Fields.ofWord w)
    · exact hd
    · exact absurd ho (h r hr)

/-- Settles O2: the row that accepts the word loses none of its fields. -/
theorem encodeInvertsDecode : Obligations.EncodeInvertsDecode := by
  unfold Obligations.EncodeInvertsDecode
  intro w i h
  obtain ⟨r, hr, ⟨ho, hc⟩, rfl⟩ := decode_ok_iff.mp h
  rw [encode, fields_build hr ho hc, Fields.toWord_ofWord]

/-! ### Masks and matches (R74) -/

/-- The match word of a row: its code, and 0 elsewhere. -/
def Row.matchWord (r : Row) : OpWord := Fields.toWord ⟨r.opc, 0, 0, 0, false, false, 0⟩

/-- The mask word of a row: every bit but those of the operand fields it uses. -/
def Row.maskWord (r : Row) : OpWord :=
  Fields.toWord
    { opc := BitVec.allOnes 8
      rsv := BitVec.allOnes 8
      a := if r.usesA then 0 else BitVec.allOnes 8
      fr := BitVec.allOnes 6
      f1 := !r.usesF1
      f0 := !r.usesF0
      v := if r.usesV then 0 else BitVec.allOnes 32 }

/-- The mnemonic of a row: that of the operation it makes, here of all-zero fields. -/
def Row.mnemonic (r : Row) : String := (r.build (Fields.ofWord 0)).mnemonic

/-- R74's table is R73's map, written as masks and matches. -/
theorem maskTable_eq_map_rows : maskTable = rows.map fun r => (r.mnemonic, r.matchWord, r.maskWord) := by decide

/-- A row makes operations of one mnemonic. -/
theorem mnemonic_build {r : Row} (hr : r ∈ rows) (f : Fields) : (r.build f).mnemonic = r.mnemonic := by
  have hall : ∀ r ∈ rows, (r.build f).mnemonic = r.mnemonic := by
    simp [rows, Row.mnemonic, Instr.mnemonic]
  exact hall r hr

theorem rows_mnemonic_nodup : (rows.map Row.mnemonic).Nodup := by decide

/-- A masked operand field is 0 exactly when the row uses it or it is 0. -/
theorem and_operandMask_eq_zero_iff {n : Nat} (x : BitVec n) (uses : Bool) :
    x &&& (if uses then 0 else BitVec.allOnes n) = 0 ↔ uses = true ∨ x = 0 := by
  cases uses <;> simp

/-- A masked flag is 0 exactly when the row uses it or it is 0. -/
theorem and_flagMask_eq_false_iff (x uses : Bool) : (x && !uses) = false ↔ uses = true ∨ (!x) = true := by
  cases uses <;> cases x <;> decide

/-- A word meets a row's mask and match exactly when the row accepts it. -/
theorem and_maskWord_eq_matchWord_iff (r : Row) (w : OpWord) : w &&& r.maskWord = r.matchWord ↔ r.Accepts w := by
  rw [← Fields.ofWord_inj, Fields.ofWord_and, Row.maskWord, Row.matchWord, Fields.ofWord_toWord, Fields.ofWord_toWord]
  simp only [Fields.mk.injEq, BitVec.and_allOnes, and_operandMask_eq_zero_iff, and_flagMask_eq_false_iff, Row.Accepts,
    Row.reservedClear, Bool.and_eq_true, Bool.or_eq_true, beq_iff_eq, and_assoc]
  exact and_congr eq_comm (and_congr Iff.rfl and_left_comm)

/-- A row accepts a word exactly when the word decodes to an operation of the row's mnemonic. -/
theorem accepts_iff_decode {r : Row} (hr : r ∈ rows) (w : OpWord) :
    r.Accepts w ↔ ∃ i, decode w = .ok i ∧ i.mnemonic = r.mnemonic := by
  constructor
  · intro h
    exact ⟨_, decode_ok_iff.mpr ⟨r, hr, h, rfl⟩, mnemonic_build hr _⟩
  · rintro ⟨i, hd, hm⟩
    obtain ⟨q, hq, hacc, rfl⟩ := decode_ok_iff.mp hd
    rw [mnemonic_build hq] at hm
    rwa [List.inj_on_of_nodup_map rows_mnemonic_nodup hr hq hm.symm]

/-- Settles O3: the table's rows are the map's, each with the mask and match that say what it accepts, and their codes differ. -/
theorem maskAndMatchDecide : Obligations.MaskAndMatchDecide := by
  unfold Obligations.MaskAndMatchDecide
  rw [maskTable_eq_map_rows]
  constructor
  · intro row hrow w
    obtain ⟨r, hr, rfl⟩ := List.mem_map.mp hrow
    exact (and_maskWord_eq_matchWord_iff r w).trans (accepts_iff_decode hr w)
  · refine List.pairwise_map.mpr ((List.pairwise_map.mp rows_opc_nodup).imp fun {r q} hne w h => ?_)
    have hr := (and_maskWord_eq_matchWord_iff r w).mp h.1
    have hq := (and_maskWord_eq_matchWord_iff q w).mp h.2
    exact hne (hr.1.trans hq.1.symm)

end Sys2Proof

namespace Sys2Proof.Machine

open Sys2Proof

/-! ### Words that name no operation (R75, R77, R211) -/

theorem present_of_decode_ok {s : State} {w : OpWord} {i : Instr} (hb : s.built = true) (hd : decode w = .ok i) :
    present w s = exec i s := by
  simp [present, hb, hd]

theorem present_of_decode_error {s : State} {w : OpWord} {e : DecodeError} (hb : s.built = true)
    (hd : decode w = .error e) : present w s = .refused (refusalOf e) := by
  simp [present, hb, hd]

/-- A word is refused as unassigned for its code alone: no operation answers so. -/
theorem present_unassigned_iff {s : State} {w : OpWord} (hb : s.built = true) :
    present w s = .refused .unassigned ↔ decode w = .error .unassigned := by
  rcases hd : decode w with e | i
  · rw [present_of_decode_error hb hd]
    cases e <;> simp [refusalOf]
  · rw [present_of_decode_ok hb hd]
    refine ⟨fun h => ?_, fun h => by cases h⟩
    obtain ⟨-, -, hr⟩ | ⟨-, hr⟩ := exec_refused h <;> cases hr

/-- A word that names no operation is taken from the host's list and answered, and nothing else changes. -/
theorem serve_of_decode_error {s : State} {w : OpWord} {e : DecodeError} (hb : s.built = true)
    (hd : decode w = .error e) {answer : ResultWord} (ha : (refusalOf e).result = some answer) (rest : List HostInput) :
    serve { s with inputs := .op w :: rest } = { s with inputs := rest, results := s.results ++ [answer] } := by
  have hp := present_of_decode_error (s := { s with inputs := rest }) hb hd
  simp only [serve, takeInput, hp, ha]
  rfl

/-- The codes no row has, as R77 lists them. -/
theorem opc_unassigned_iff (b : Byte) :
    (∀ r ∈ rows, r.opc ≠ b) ↔
      b.toNat = 0 ∨ (0x07 ≤ b.toNat ∧ b.toNat ≤ 0x0F) ∨ (0x17 ≤ b.toNat ∧ b.toNat ≤ 0x1F) ∨
        (0x22 ≤ b.toNat ∧ b.toNat ≤ 0x2F) ∨ 0x32 ≤ b.toNat := by
  simp only [rows, List.cons_append, List.nil_append, List.forall_mem_cons, List.not_mem_nil, false_imp_iff, implies_true,
    and_true, ne_eq, ← BitVec.toNat_inj, BitVec.reduceToNat]
  omega

/-- Settles O4: a word is refused as unassigned exactly when no row has its code. -/
theorem unassignedOpcRefused : Obligations.UnassignedOpcRefused := by
  unfold Obligations.UnassignedOpcRefused
  intro w s hb
  have hrefused := (present_unassigned_iff hb).trans (decode_unassigned_iff (w := w))
  exact ⟨(opc_unassigned_iff _).symm.trans hrefused.symm,
    fun h rest => serve_of_decode_error hb ((present_unassigned_iff hb).mp h) rfl rest⟩

/-- A row's match holds its code. -/
theorem extractLsb'_matchWord (r : Row) : r.matchWord.extractLsb' 56 8 = r.opc :=
  congrArg Fields.opc (Fields.ofWord_toWord ⟨r.opc, 0, 0, 0, false, false, 0⟩)

/-- Settles O5: a word with a row's code that does not meet its mask has a 1 in a bit the row leaves unused. -/
theorem reservedBitRefused : Obligations.ReservedBitRefused := by
  unfold Obligations.ReservedBitRefused
  rw [maskTable_eq_map_rows]
  intro row hrow w s rest hb hopc hmask
  obtain ⟨r, hr, rfl⟩ := List.mem_map.mp hrow
  have ho : r.opc = (Fields.ofWord w).opc := (hopc.trans (extractLsb'_matchWord r)).symm
  have hc : ¬r.reservedClear (Fields.ofWord w) = true := fun hc =>
    hmask ((and_maskWord_eq_matchWord_iff r w).mpr ⟨ho, hc⟩)
  have hd : decode w = .error .reserved := by rw [decode_of_opc hr ho, if_neg hc]
  exact ⟨present_of_decode_error hb hd, serve_of_decode_error hb hd rfl rest⟩

/-! ### Sample words, the result word and the step (R70, R76) -/

/-- Settles O7: each word is that of its operation. -/
theorem sampleWordsDecode : Obligations.SampleWordsDecode := by
  unfold Obligations.SampleWordsDecode
  exact ⟨decode_encode (.txByte 0x40), decode_encode (.sendCmd 0x40 true), decode_encode (.sendData 0x5B false),
    decode_encode .close, decode_encode (.setInt 0xFFFFFFFB true), decode_encode (.setHours 7 true true),
    decode_encode (.decode 0x11223344 7), decode_encode (.setCoding .rawByte), decode_encode (.setPower true),
    decode_encode (.setBright 200)⟩

/-- The result word's bits (R76): BYTE, ACK, REASON, zeros, REFUSED. -/
theorem getLsbD_resultWord (refused : Bool) (reason : BitVec 2) (ack : Bool) (byte : Byte) (k : Nat) :
    (resultWord refused reason ack byte).getLsbD k =
      if k < 8 then byte.getLsbD k
      else if k < 9 then ack
      else if k < 11 then reason.getLsbD (k - 9)
      else if k < 15 then false
      else decide (k = 15) && refused := by
  simp only [resultWord, BitVec.getLsbD_append, BitVec.getLsbD_ofBool, BitVec.getLsbD_zero]
  split_ifs <;> grind

/-- Settles O8: each range of R76 covers one field's bits. -/
theorem resultWordLayout : Obligations.ResultWordLayout := by
  unfold Obligations.ResultWordLayout
  intro refused reason ack byte
  refine ⟨?_, ?_, ?_, ?_, ?_⟩
  · simp only [getLsbD_resultWord]
    simp
  · apply BitVec.eq_of_getLsbD_eq
    intro k hk
    simp only [BitVec.getLsbD_extractLsb', getLsbD_resultWord]
    grind
  · apply BitVec.eq_of_getLsbD_eq
    intro k hk
    simp only [BitVec.getLsbD_extractLsb', getLsbD_resultWord]
    grind
  · simp only [getLsbD_resultWord]
    simp
  · exact BitVec.extractLsb'_append_eq_right

/-- Settles O10: the port takes the next input, decodes it, and runs what it decodes to. -/
theorem stepRunsDecodedOperation : Obligations.StepRunsDecodedOperation := by
  unfold Obligations.StepRunsDecodedOperation
  have run : ∀ (s : State) (w : OpWord) (rest : List HostInput) (i : Instr), s.built = true →
      s.inputs = .op w :: rest → decode w = .ok i → step s = exec i { s with inputs := rest } := by
    intro s w rest i hb hi hd
    rw [step, stepPort, hi]
    exact present_of_decode_ok hb hd
  refine ⟨run, fun s i hb => ?_, fun s hi => by rw [step, stepPort, hi]⟩
  have hw : BitVec.ofNat 64 ((encode i).toNat % 2 ^ 64) = encode i := by
    rw [Nat.mod_eq_of_lt (encode i).isLt, BitVec.ofNat_toNat, BitVec.setWidth_eq]
  exact run (s.withFetchWord 64 (encode i).toNat) _ s.inputs i hb rfl (by rw [hw, decode_encode])

/-! ### Configurations (R87, D29) -/

theorem and_seven_eq_zero_iff (b : Byte) : b &&& 0x07#8 = 0#8 ↔ b.extractLsb' 0 3 = 0#3 := by
  have hand : (b &&& 0x07#8).toNat = b.toNat % 2 ^ 3 := Nat.and_two_pow_sub_one_eq_mod b.toNat 3
  rw [← BitVec.toNat_inj, ← BitVec.toNat_inj, hand, BitVec.extractLsb'_toNat]
  rfl

theorem wf_iff (c : Config) :
    c.wf = true ↔ c.clkPin ≠ c.dioPin ∧ c.cmdDispOn.extractLsb' 0 3 = 0#3 ∧ c.cmdDispOff.extractLsb' 0 3 = 0#3 := by
  simp [Config.wf, Config.pinsDistinct, Config.dispBasesClear, and_seven_eq_zero_iff]

/-- Settles O39: each of the three faults makes the configuration ill-formed. -/
theorem badConfigurationRefused : Obligations.BadConfigurationRefused := by
  unfold Obligations.BadConfigurationRefused
  intro c s rest hi hbad
  have hwf : ¬c.wf = true := by
    rw [wf_iff]
    rintro ⟨hpins, hon, hoff⟩
    obtain h | h | h := hbad
    · exact hpins h
    · exact h hon
    · exact h hoff
  rw [step, stepPort, hi]
  exact if_neg hwf

end Sys2Proof.Machine

/-! # Proofs about the assembler's lines (`30_encoding.md` R79, R80)

The operands of an operation, read back at their widths; then `assembleLine_lineText` carries the same to the line's characters. -/

namespace Sys2Proof.Machine

open Sys2Proof

/-! ### Operands -/

theorem asByte_toNat (b : Byte) : asByte (.num false b.toNat) = some b := by
  simp [asByte, b.isLt]

theorem asU32_toNat (v : Value) : asU32 (.num false v.toNat) = some v := by
  simp [asU32, v.isLt]

/-- The number R79 writes for a value read as two's complement. -/
def signedNum (n : Value) : AsmArg := if n.msb then .num true (2 ^ 32 - n.toNat) else .num false n.toNat

/-- A value with its top bit set is written as its negation, which is subtracted from 0 again. -/
theorem asS32_signedNum (n : Value) : asS32 (signedNum n) = some n := by
  have hmsb := BitVec.msb_eq_decide n
  have hlt := n.isLt
  rcases hm : n.msb with _ | _
  · have hn : n.toNat < 2 ^ 31 := by simpa [hm] using hmsb
    simp only [signedNum, hm, asS32, if_pos hn, Bool.false_eq_true, if_false, BitVec.ofNat_toNat, BitVec.setWidth_eq]
  · have hn : 2 ^ 31 ≤ n.toNat := by simpa [hm] using hmsb
    have hle : 2 ^ 32 - n.toNat ≤ 2 ^ 31 := by omega
    have hback : 0#32 - BitVec.ofNat 32 (2 ^ 32 - n.toNat) = n := by bv_omega
    simp only [signedNum, hm, asS32, hback, if_pos hle, if_true]

theorem asmArgs_setInt (n : Value) (c : Bool) :
    asmArgs (.setInt n c) = signedNum n :: (if c then [.key .colon] else []) := rfl

theorem asStop_flag (st : Bool) : asStop (.key (if st then .stop else .opened)) = some st := by
  cases st <;> rfl

/-- WRITE1's operands give its two operations (R80). -/
theorem assemble_write1 (p b : Byte) :
    assemble "WRITE1" [.num false p.toNat, .num false b.toNat] = some [.beginWrite p, .sendData b true] := by
  simp [assemble, asByte_toNat]

/-- SEND_CMD with no flag is SEND_CMD with stop (R79). -/
theorem assemble_sendCmd_noFlag (b : Byte) : assemble "SEND_CMD" [.num false b.toNat] = some [.sendCmd b true] := by
  simp [assemble, asByte_toNat]

theorem assemble_asmArgs (i : Instr) : assemble i.mnemonic (asmArgs i) = some [i] := by
  cases i with
  | txByte b => simp [Instr.mnemonic, asmArgs, assemble, asByte_toNat]
  | start | stop | clear | testAll | close => rfl
  | sendCmd b st => simp [Instr.mnemonic, asmArgs, assemble, asByte_toNat, asStop_flag]
  | sendData b st => simp [Instr.mnemonic, asmArgs, assemble, asByte_toNat, asStop_flag]
  | beginWrite p => simp [Instr.mnemonic, asmArgs, assemble, asByte_toNat]
  | setBlank p => simp [Instr.mnemonic, asmArgs, assemble, asByte_toNat]
  | setInt n c => cases c <;> simp [Instr.mnemonic, asmArgs_setInt, assemble, asS32_signedNum]
  | setHours v c z => cases c <;> cases z <;> simp [Instr.mnemonic, asmArgs, assemble, asU32_toNat]
  | setMinutes v z => cases z <;> simp [Instr.mnemonic, asmArgs, assemble, asU32_toNat]
  | decode v k => simp [Instr.mnemonic, asmArgs, assemble, asU32_toNat, asByte_toNat]
  | setCoding m => cases m <;> rfl
  | setPower on => cases on <;> rfl
  | setBright l => simp [Instr.mnemonic, asmArgs, assemble, asByte_toNat]

/-! ### Lines -/

theorem fits_byte (b : Byte) : (AsmArg.num false b.toNat).fits := Nat.lt_trans b.isLt (by decide)

theorem fits_value (v : Value) : (AsmArg.num false v.toNat).fits := v.isLt

theorem fits_key (k : Keyword) : (AsmArg.key k).fits := trivial

theorem fits_signedNum (n : Value) : (signedNum n).fits := by
  have hmsb := BitVec.msb_eq_decide n
  rcases hm : n.msb with _ | _
  · simpa [signedNum, hm] using fits_value n
  · have hn : 2 ^ 31 ≤ n.toNat := by simpa [hm] using hmsb
    simp only [signedNum, hm, if_true, AsmArg.fits]
    omega

/-- Every operand of an operation is one R79 can write. -/
theorem fits_of_mem_asmArgs (i : Instr) : ∀ a ∈ asmArgs i, a.fits := by
  cases i with
  | start | stop | clear | testAll | close => exact fun a h => absurd h List.not_mem_nil
  | setInt n c => cases c <;> simp [asmArgs_setInt, fits_signedNum, fits_key]
  | setHours v c z => cases c <;> cases z <;> simp [asmArgs, fits_value, fits_key]
  | setMinutes v z => cases z <;> simp [asmArgs, fits_value, fits_key]
  | _ => simp [asmArgs, fits_byte, fits_value, fits_key]

/-- A mnemonic is a word with no space in it. -/
theorem mnemonic_chars (i : Instr) : i.mnemonic.toList ≠ [] ∧ ∀ c ∈ i.mnemonic.toList, c ≠ ' ' := by
  cases i <;> simp [Instr.mnemonic]

/-- Settles O9: the operands read back at their widths, and a line's characters as its mnemonic and operands. -/
theorem assembleReadsEveryOperation : Obligations.AssembleReadsEveryOperation := by
  unfold Obligations.AssembleReadsEveryOperation
  refine ⟨assemble_asmArgs, fun hex gap i => ?_, fun hex gap b => ?_, fun hex gap p b => ?_⟩
  · obtain ⟨hne, hspace⟩ := mnemonic_chars i
    rw [assembleLine_lineText hex gap _ _ hne hspace (fits_of_mem_asmArgs i), assemble_asmArgs]
  · rw [assembleLine_lineText hex gap _ _ (by simp) (by simp) (by simp [fits_byte]), assemble_sendCmd_noFlag]
  · rw [assembleLine_lineText hex gap _ _ (by simp) (by simp) (by simp [fits_byte]), assemble_write1]

/-! ### WRITE1 on the block (R80, R140) -/

theorem finishAck_accepts {s : State} (ha : s.accepts) (e : State → State × Bool) :
    finishAck s e = .next ((e s).1.respond (resultAck (e s).2)) :=
  whenOpen_accepts ha.1 ha.2 _

/-- A result returned before a byte is sent changes nothing of what the byte does. -/
theorem data_stop_respond (b : Byte) (s : State) (w : ResultWord) :
    (data b true (s.respond w)).1 = (data b true s).1.respond w := by
  rw [data_stop, data_stop]
  rfl

/-- `Write1(p, b)` returns no result of its own. -/
theorem write1_results (p b : Byte) (s : State) : (write1 p b s).results = s.results := by
  rw [write1_eq]
  rfl

/-- Settles O22: BEGIN_WRITE leaves the state of `Begin(p)` with a result, and the byte that ends `Write1(p, b)` is sent from it. -/
theorem writeOnePseudoInstruction : Obligations.WriteOnePseudoInstruction := by
  unfold Obligations.WriteOnePseudoInstruction
  intro p b
  refine ⟨assemble_write1 p b, fun s ha => ?_⟩
  have hbegin : exec (.beginWrite p) s = .next ((beginAt p s).1.respond (resultAck (beginAt p s).2)) :=
    finishAck_accepts ha (beginAt p)
  generalize resultAck (beginAt p s).2 = w at hbegin
  have hopen : ((beginAt p s).1.respond w).accepts := by
    rw [beginAt_eq]
    exact ha
  refine ⟨_, _, w, resultAck (data b true ((beginAt p s).1.respond w)).2, hbegin,
    finishAck_accepts hopen (data b true), ?_⟩
  rw [data_stop_respond, ← write1]
  simp only [State.respond, write1_results, List.append_assoc, List.singleton_append]

end Sys2Proof.Machine

/-! # Proofs about the frames the block makes by itself (`30_encoding.md` R87, R88)

A composed operation's items are a run of two kinds of frame: a write frame and a pair of one-byte control frames. Each framing duty is
proved of any such run, frame by frame. Then what every step keeps of the configuration, the power and the results. -/

namespace Sys2Proof.Machine

open Sys2Proof

/-! ### Runs of the block's own frames -/

/-- A run of the frames the composed operations send: write frames whose bytes fit in the display from their position on, and pairs of
one-byte control frames that carry a command of the block. -/
inductive FrameRun (s : State) : List Slot → Prop where
  | nil : FrameRun s []
  | write {k : Nat} {p : Byte} {bs : List Byte} {r : List Slot} (hne : bs ≠ [])
      (hfit : (sat p).toNat - 1 + bs.length ≤ nposPhys) (hr : FrameRun s r) : FrameRun s (writeSlots s k p bs ++ r)
  | control {k : Nat} {c : Byte} {r : List Slot} (hc : isBlockCommand s.cfg c = true) (hr : FrameRun s r) :
      FrameRun s (controlSlots s k c ++ r)

/-- A write frame by its parts: its begin, its bytes, its STOP, and what follows. -/
theorem writeSlots_append (s : State) (k : Nat) (p : Byte) (bs : List Byte) (r : List Slot) :
    writeSlots s k p bs ++ r = beginSlots s k p ++ (bytesFrom s (k + 2) bs ++ .stop :: r) := by
  simp [writeSlots]

theorem FrameRun.of_write {s : State} {k : Nat} {p : Byte} {bs : List Byte} (hne : bs ≠ [])
    (hfit : (sat p).toNat - 1 + bs.length ≤ nposPhys) : FrameRun s (writeSlots s k p bs) := by
  simpa using FrameRun.write hne hfit .nil

theorem FrameRun.of_control {s : State} {k : Nat} {c : Byte} (hc : isBlockCommand s.cfg c = true) :
    FrameRun s (controlSlots s k c) := by
  simpa using FrameRun.control hc .nil

/-- One byte fits at every position, so any list of writes is a run. -/
theorem FrameRun.of_writes (s : State) (k : Nat) (ws : List (Nat × Byte)) : FrameRun s (writesSlots s k ws) := by
  induction ws generalizing k with
  | nil => exact .nil
  | cons w ws ih =>
    have := sat_toNat_range (BitVec.ofNat 8 w.1)
    exact .write (by simp) (by simp [nposPhys]; omega) (ih (k + 3))

/-! ### The block's own commands (R88) -/

theorem isBlockCommand_dataAuto (c : Config) : isBlockCommand c c.cmdDataAuto = true := by
  simp [isBlockCommand]

theorem isBlockCommand_addr_sat (c : Config) (p : Byte) : isBlockCommand c (addr c (sat p)) = true := by
  have hmem : sat p ∈ [1#8, 2#8, 3#8, 4#8, 5#8, 6#8] := by
    have := sat_toNat_range p
    simp only [List.mem_cons, List.not_mem_nil, or_false, ← BitVec.toNat_inj, BitVec.reduceToNat]
    omega
  have hany : [1#8, 2#8, 3#8, 4#8, 5#8, 6#8].any (fun q => addr c (sat p) == addr c q) = true :=
    List.any_eq_true.mpr ⟨sat p, hmem, by simp⟩
  rw [isBlockCommand, hany, Bool.or_true, Bool.true_or]

theorem isBlockCommand_disp (c : Config) (on : Bool) (x : BitVec 3) : isBlockCommand c (disp c on x) = true := by
  have hany : ((List.range 8).any fun n =>
      disp c on x == disp c true (BitVec.ofNat 3 n) || disp c on x == disp c false (BitVec.ofNat 3 n)) = true := by
    refine List.any_eq_true.mpr ⟨x.toNat, List.mem_range.mpr x.isLt, ?_⟩
    cases on <;> simp
  rw [isBlockCommand, hany, Bool.or_true]

/-! ### The duties, frame by frame (R243, R244, R249) -/

theorem framesWhole_bytesFrom (s : State) (k : Nat) (bs : List Byte) (r : List Slot) :
    framesWhole .opened (bytesFrom s k bs ++ r) = framesWhole .opened r := by
  induction bs generalizing k with
  | nil => rfl
  | cons b bs ih => exact ih (k + 1)

theorem frameHeads_bytesFrom (s : State) (k : Nat) (bs : List Byte) (r : List Slot) :
    frameHeads false (bytesFrom s k bs ++ r) = frameHeads false r := by
  induction bs generalizing k with
  | nil => rfl
  | cons b bs ih => exact ih (k + 1)

theorem beginsFed_bytesFrom (s : State) (k : Nat) (bs : List Byte) (r : List Slot) :
    beginsFed (bytesFrom s k bs ++ r) = beginsFed r := by
  induction bs generalizing k with
  | nil => rfl
  | cons b bs ih => exact ih (k + 1)

theorem streamFed_bytesFrom (s : State) (k : Nat) (bs : List Byte) (hne : bs ≠ []) (r : List Slot) :
    streamFed (bytesFrom s k bs ++ .stop :: r) = true := by
  induction bs generalizing k with
  | nil => exact absurd rfl hne
  | cons b bs ih =>
    cases bs with
    | nil => rfl
    | cons b' bs => exact ih (k + 1) (List.cons_ne_nil _ _)

theorem FrameRun.framesWhole_eq_true {s : State} {items : List Slot} (h : FrameRun s items) :
    framesWhole .idle items = true := by
  induction h with
  | nil => rfl
  | write _ _ _ ih =>
    rw [writeSlots_append]
    exact (framesWhole_bytesFrom s _ _ _).trans ih
  | control _ _ ih => exact ih

/-- Each frame is closed, so the run leaves none open, whatever stood before its first. -/
theorem FrameRun.frameAfter_eq_idle {s : State} {items : List Slot} (h : FrameRun s items) {f : Frame}
    (hf : f = .idle ∨ items ≠ []) : frameAfter f items = .idle := by
  induction h generalizing f with
  | nil => simpa [frameAfter] using hf
  | write _ _ _ ih =>
    rw [writeSlots, frameAfter_append, frameAfter_append]
    exact ih (.inl rfl)
  | control _ _ ih =>
    rw [frameAfter_append]
    exact ih (.inl rfl)

theorem FrameRun.isBlockCommand_of_mem_frameHeads {s : State} {items : List Slot} (h : FrameRun s items) :
    ∀ b ∈ frameHeads false items, isBlockCommand s.cfg b = true := by
  induction h with
  | nil => exact fun b hb => absurd hb List.not_mem_nil
  | @write k p bs r _ _ _ ih =>
    have hheads : frameHeads false (writeSlots s k p bs ++ r) =
        s.cfg.cmdDataAuto :: addr s.cfg (sat p) :: frameHeads false r := by
      rw [writeSlots_append]
      exact congrArg (fun l => s.cfg.cmdDataAuto :: addr s.cfg (sat p) :: l) (frameHeads_bytesFrom s (k + 2) bs (.stop :: r))
    rw [hheads, List.forall_mem_cons, List.forall_mem_cons]
    exact ⟨isBlockCommand_dataAuto _, isBlockCommand_addr_sat _ _, ih⟩
  | @control k c r hc _ ih =>
    have hheads : frameHeads false (controlSlots s k c ++ r) =
        s.cfg.cmdDataAuto :: c :: frameHeads false r := rfl
    rw [hheads, List.forall_mem_cons, List.forall_mem_cons]
    exact ⟨isBlockCommand_dataAuto _, hc, ih⟩

theorem FrameRun.beginsFed_eq_true {s : State} {items : List Slot} (h : FrameRun s items) : beginsFed items = true := by
  induction h with
  | nil => rfl
  | @write k p bs r hne _ _ ih =>
    have hbegin : beginsFed (writeSlots s k p bs ++ r) =
        (streamFed (bytesFrom s (k + 2) bs ++ .stop :: r) &&
          beginsFed (bytesFrom s (k + 2) bs ++ .stop :: r)) := by
      rw [writeSlots_append]
      rfl
    rw [hbegin, streamFed_bytesFrom s _ _ hne, beginsFed_bytesFrom]
    exact ih
  | control _ _ ih => exact ih

/-- No data byte of a run passes offset 5. -/
theorem FrameRun.offset_lt_of_mem_memWrites {s : State} {items : List Slot} (h : FrameRun s items) :
    ∀ x ∈ memWrites s.cfg items, x.1 < nposPhys := by
  unfold memWrites
  induction h with
  | nil => exact fun x hx => absurd hx List.not_mem_nil
  | @write k p bs r _ hfit _ ih =>
    rw [memWritesFrom_writeSlots, List.forall_mem_append]
    refine ⟨fun x hx => ?_, ih⟩
    obtain ⟨y, hy, rfl⟩ := List.mem_map.mp hx
    have := List.snd_lt_add_of_mem_zipIdx hy
    simp only [Prod.fst_swap]
    omega
  | @control k c r _ _ ih => exact ih

/-! ### The composed operations -/

theorem frameRun_itemsOf {i : Instr} (h : composed i = true) (s : State) : FrameRun s (itemsOf i s) := by
  have hfill : ∀ b, FrameRun s (writeSlots s 0 1#8 [b, b, b, b, b, b]) := fun b =>
    .of_write (by simp) (by simp [sat, nposPhys])
  cases i with
  | clear => exact hfill blankByte
  | testAll => exact hfill allByte
  | setBlank p =>
    have := sat_toNat_range p
    exact .of_write (by simp) (by simp [nposPhys]; omega)
  | setInt n colon => exact .of_writes s 0 _
  | setHours v colon zero => exact .of_write (by simp) (by simp [sat, nposPhys])
  | setMinutes v zero => exact .of_write (by simp) (by simp [sat, nposPhys])
  | close =>
    exact .write (by simp) (by decide) (.of_control (isBlockCommand_disp _ _ _))
  | setPower on => exact .of_control (isBlockCommand_disp _ _ _)
  | setBright l => exact .of_control (isBlockCommand_disp _ _ _)
  | txByte | sendCmd | sendData | beginWrite | start | stop | decode | setCoding => cases h

theorem itemsOf_ne_nil {i : Instr} (h : composed i = true) (s : State) : itemsOf i s ≠ [] := by
  cases i with
  | setInt n colon =>
    obtain ⟨w, ws, hw⟩ := List.exists_cons_of_ne_nil (intWrites_ne_nil s.cod n colon)
    simp [itemsOf, hw, writesSlots, writeSlots]
  | txByte | sendCmd | sendData | beginWrite | start | stop | decode | setCoding => cases h
  | _ => exact List.cons_ne_nil _ _

/-- Settles O46: the items of a composed operation are a run of the block's own frames, each of which keeps every duty. -/
theorem composedOperationsKeepFraming : Obligations.ComposedOperationsKeepFraming := by
  unfold Obligations.ComposedOperationsKeepFraming
  intro i s t hi h
  obtain ⟨wire, -⟩ := exec_next h
  have run := frameRun_itemsOf hi s
  exact ⟨itemsOf i s, wire.trace, run.framesWhole_eq_true, run.frameAfter_eq_idle (.inl rfl),
    wire.frame.trans (run.frameAfter_eq_idle (.inr (itemsOf_ne_nil hi s))), run.isBlockCommand_of_mem_frameHeads,
    run.beginsFed_eq_true, run.offset_lt_of_mem_memWrites⟩

/-! ### Configuration, power and results (R76, R87, R149) -/

theorem closedIsOff_iff (s : State) : s.closedIsOff = true ↔ s.life = .opened ∨ s.pwr = false := by
  simp [State.closedIsOff]

/-- A word with REFUSED and REASON 0 is a completed operation's (R76). -/
theorem resultCompleted_resultWord (ack : Bool) (byte : Byte) : resultCompleted (resultWord false 0 ack byte) = true := by
  have hbits : (resultWord false 0 ack byte).extractLsb' 9 7 = 0#7 := by
    apply BitVec.eq_of_getLsbD_eq
    intro k hk
    simp only [BitVec.getLsbD_extractLsb', getLsbD_resultWord]
    grind
  rw [resultCompleted, hbits, beq_self_eq_true]

theorem resultCompleted_resultOf (i : Instr) (s : State) : resultCompleted (resultOf i s) = true := by
  cases i <;> exact resultCompleted_resultWord _ _

/-- An operation runs while OPEN, and CLOSE, the one that leaves OPEN, records the power off. -/
theorem closedIsOff_of_exec {i : Instr} {s t : State} (h : exec i s = .next t) : t.closedIsOff = true := by
  obtain ⟨-, hopen⟩ := exec_next_accepts h
  obtain ⟨-, registers⟩ := exec_next h
  rw [closedIsOff_iff]
  cases i with
  | close => exact .inr registers.pwr
  | _ => exact .inl (registers.life.trans hopen)

/-- A reset binds its configuration, opens the block and returns no result (R230, R231). -/
theorem applyReset_frame (c : Config) (s : State) :
    (applyReset c s).cfg = c ∧ (applyReset c s).life = .opened ∧ (applyReset c s).results = s.results := by
  unfold applyReset
  rw [brightSeq_eq, primed_eq]
  split <;> exact ⟨rfl, rfl, rfl⟩

/-- Settles O54: an operation leaves the configuration, a reset binds a well-formed one, and either returns completed results alone. -/
theorem stepKeepsConfigAndClosedOff : Obligations.StepKeepsConfigAndClosedOff := by
  unfold Obligations.StepKeepsConfigAndClosedOff
  intro s t hs h
  obtain ⟨hwf, hoff, hresults⟩ := hs
  obtain ⟨-, rfl⟩ | ⟨-, rest, i, -, -, -, hi⟩ | ⟨c, rest, -, hc, rfl⟩ := step_next h
  · exact ⟨hwf, hoff, hresults⟩
  · obtain ⟨wire, registers⟩ := exec_next hi
    refine ⟨by rw [wire.cfg]; exact hwf, closedIsOff_of_exec hi, ?_⟩
    rw [registers.results, List.forall_mem_append, List.forall_mem_singleton]
    exact ⟨hresults, resultCompleted_resultOf i _⟩
  · obtain ⟨hcfg, hlife, hres⟩ := applyReset_frame c { s with inputs := rest }
    exact ⟨by rw [hcfg]; exact hc, (closedIsOff_iff _).mpr (.inl hlife), by rw [hres]; exact hresults⟩

end Sys2Proof.Machine

/-! # Proofs about the transmitter and its acknowledgements (`40_transmitter.md`)

The reads on a run of items are the levels of its byte slots (R102). Erasing those levels, from the items or from the events, leaves
everything else a run of items tells, so two runs of an operation under other samples agree once the levels are erased (R103, R104). -/

namespace Sys2Proof.Machine

open Sys2Proof

/-! ### One byte (R100, R101) -/

theorem length_bitSlot (v : Bool) : (bitSlot v).length = 3 := rfl

theorem length_byteSlot (b : Byte) (l : Level) : (byteSlot b l).length = 31 := by
  simp [byteSlot, length_bitSlot, ackSlot]

theorem resultAck_ackOf (l : Level) : resultAck (ackOf l) = if l = .low then 0x0100#16 else 0x0000#16 := by
  cases l <;> rfl

/-- Settles O15: TX_BYTE is `Tx(b)`, one byte slot, with the acknowledgement returned. -/
theorem txByteSendsOneByte : Obligations.TxByteSendsOneByte := by
  unfold Obligations.TxByteSendsOneByte
  intro b s ha l
  refine ⟨?_, length_byteSlot b l⟩
  calc exec (.txByte b) s
      = .next ((tx b s).1.respond (resultAck (tx b s).2)) := finishAck_accepts ha (tx b)
    _ = .next ((s.afterBytes [.byte b l]).respond (if l = .low then 0x0100#16 else 0x0000#16)) := by
      rw [tx_eq, resultAck_ackOf]
    _ = _ := by simp [State.afterBytes, State.respond, wireEvents, Slot.events, byteCount, frameAfter]

/-! ### The reads on the trace (R83, R102) -/

/-- A byte slot is the one item that reads DIO, once. -/
theorem rd_mem_events_iff (x : Slot) (l : Level) : PinEvent.rd .dio l ∈ x.events ↔ ∃ b, x = .byte b l := by
  cases x with
  | byte b m => simp [Slot.events, byteSlot, bitSlot, ackSlot, eq_comm]
  | reset | start | stop => simp [Slot.events]

theorem rd_mem_wireEvents_iff (items : List Slot) (l : Level) :
    PinEvent.rd .dio l ∈ wireEvents items ↔ ∃ b, Slot.byte b l ∈ items := by
  simp only [wireEvents, List.mem_flatMap, rd_mem_events_iff]
  constructor
  · rintro ⟨_, hx, b, rfl⟩
    exact ⟨b, hx⟩
  · rintro ⟨b, hb⟩
    exact ⟨_, hb, b, rfl⟩

/-- The operations that send one byte and report its acknowledgement (R101, R127, R128). -/
def SendsOneByte (i : Instr) : Prop :=
  (∃ b, i = .txByte b) ∨ (∃ b st, i = .sendCmd b st) ∨ (∃ b st, i = .sendData b st)

theorem byte_mem_itemsOf_iff {i : Instr} (hi : SendsOneByte i) (s : State) (l : Level) :
    (∃ b, Slot.byte b l ∈ itemsOf i s) ↔ l = s.levelAt 0 := by
  obtain ⟨b, rfl⟩ | ⟨b, st, rfl⟩ | ⟨b, st, rfl⟩ := hi
  · simp [itemsOf]
  · cases st <;> simp [itemsOf]
  · cases st <;> simp [itemsOf]

theorem resultOf_of_sendsOneByte {i : Instr} (hi : SendsOneByte i) (s : State) :
    resultOf i s = resultAck (ackOf (s.levelAt 0)) := by
  obtain ⟨b, rfl⟩ | ⟨b, st, rfl⟩ | ⟨b, st, rfl⟩ := hi <;> rfl

/-- ACK is bit 8 of the result (R76). -/
theorem getLsbD_eight_resultAck (ack : Bool) : (resultAck ack).getLsbD 8 = ack :=
  getLsbD_resultWord false 0 ack 0 8

theorem ackOf_eq_true_iff (l : Level) : ackOf l = true ↔ Level.low = l := by
  cases l <;> decide

theorem ackOf_eq_false_iff (l : Level) : ackOf l = false ↔ Level.high = l := by
  cases l <;> decide

/-- Settles O16: the one byte slot's read and the ACK bit come from the same sample. -/
theorem ackBitIsTheSampledLevel : Obligations.AckBitIsTheSampledLevel := by
  unfold Obligations.AckBitIsTheSampledLevel
  intro i s t hi h
  obtain ⟨wire, registers⟩ := exec_next h
  have hread : ∀ l, PinEvent.rd .dio l ∈ t.trace.drop s.trace.length ↔ l = s.levelAt 0 := by
    intro l
    rw [wire.trace, List.drop_left, rd_mem_wireEvents_iff, byte_mem_itemsOf_iff hi]
  refine ⟨resultOf i s, registers.results, ?_, ?_⟩ <;>
    rw [resultOf_of_sendsOneByte hi, getLsbD_eight_resultAck, hread]
  · exact ackOf_eq_true_iff _
  · exact ackOf_eq_false_iff _

/-! ### Items and events with the sampled levels erased -/

/-- An item without the level its acknowledgement slot sampled. -/
def Slot.eraseLevel : Slot → Slot
  | .byte b _ => .byte b .high
  | x => x

theorem events_eraseLevel (x : Slot) : x.eraseLevel.events = x.events.map eraseRead := by
  cases x <;> rfl

theorem wireEvents_map_eraseLevel (items : List Slot) :
    wireEvents (items.map Slot.eraseLevel) = (wireEvents items).map eraseRead := by
  simp only [wireEvents, List.flatMap_map, List.map_flatMap, events_eraseLevel]

theorem byteCount_map_eraseLevel (items : List Slot) : byteCount (items.map Slot.eraseLevel) = byteCount items := by
  induction items with
  | nil => rfl
  | cons x items ih => cases x <;> simp [Slot.eraseLevel, byteCount, ih]

theorem frameAfter_map_eraseLevel (f : Frame) (items : List Slot) :
    frameAfter f (items.map Slot.eraseLevel) = frameAfter f items := by
  induction items generalizing f with
  | nil => rfl
  | cons x items ih => cases x <;> exact ih _

theorem linesAfter_map_eraseLevel (x : Level × Level) (items : List Slot) :
    linesAfter x (items.map Slot.eraseLevel) = linesAfter x items := by
  induction items generalizing x with
  | nil => rfl
  | cons y items ih => cases y <;> exact ih _

/-! ### The same operation under other samples (R103, R104, R214) -/

/-- `s` with other levels to come on DIO. -/
def State.withSamples (s : State) (d : List Level) (n : Nat) : State := { s with draws := d, drawn := n }

theorem writesSlots_withSamples (s : State) (d : List Level) (n k : Nat) (ws : List (Nat × Byte)) :
    (writesSlots (s.withSamples d n) k ws).map Slot.eraseLevel = (writesSlots s k ws).map Slot.eraseLevel := by
  induction ws generalizing k with
  | nil => rfl
  | cons w ws ih =>
    rw [writesSlots, writesSlots, List.map_append, List.map_append, ih]
    rfl

/-- The bytes an operation sends, and where it starts and stops, depend on no sample. -/
theorem itemsOf_withSamples (i : Instr) (s : State) (d : List Level) (n : Nat) :
    (itemsOf i (s.withSamples d n)).map Slot.eraseLevel = (itemsOf i s).map Slot.eraseLevel := by
  cases i with
  | setInt v colon => exact writesSlots_withSamples s d n 0 (intWrites s.cod v colon)
  | _ => rfl

/-- All but the ACK bit is 0 in the result of an operation that reports an acknowledgement (R76). -/
theorem resultAck_and_not_ack (ack : Bool) : resultAck ack &&& 0xFEFF#16 = 0#16 := by
  cases ack <;> rfl

theorem resultOf_withSamples_and_not_ack (i : Instr) (s : State) (d : List Level) (n : Nat) :
    resultOf i (s.withSamples d n) &&& 0xFEFF#16 = resultOf i s &&& 0xFEFF#16 := by
  cases i with
  | txByte | sendCmd | sendData | beginWrite => exact (resultAck_and_not_ack _).trans (resultAck_and_not_ack _).symm
  | _ => rfl

theorem resultOf_withSamples_of_not_reportsAck {i : Instr} (hi : reportsAck i = false) (s : State) (d : List Level) (n : Nat) :
    resultOf i (s.withSamples d n) = resultOf i s := by
  cases i with
  | txByte | sendCmd | sendData | beginWrite => cases hi
  | _ => rfl

/-- Two runs from states that differ in the samples alone, with items that differ in the sampled levels alone, differ in the trace's
reads and the samples alone, as far as the wire goes. -/
theorem Wired.agree_of_withSamples {s t t' : State} {items items' : List Slot} {d : List Level} {n : Nat}
    (h' : Wired (s.withSamples d n) t' items') (h : Wired s t items)
    (he : items'.map Slot.eraseLevel = items.map Slot.eraseLevel) :
    t'.trace.map eraseRead = t.trace.map eraseRead ∧ t'.frame = t.frame ∧ t'.clkLvl = t.clkLvl ∧ t'.dioLvl = t.dioLvl ∧
      t'.dioDir = t.dioDir := by
  have hcount : byteCount items' = byteCount items := by
    rw [← byteCount_map_eraseLevel, he, byteCount_map_eraseLevel]
  have hlines : (t'.clkLvl, t'.dioLvl) = (t.clkLvl, t.dioLvl) := by
    rw [h'.lines, h.lines, ← linesAfter_map_eraseLevel, he, linesAfter_map_eraseLevel]
    rfl
  obtain ⟨hclk, hdio⟩ := Prod.mk.inj hlines
  refine ⟨?_, ?_, hclk, hdio, ?_⟩
  · rw [h'.trace, h.trace, List.map_append, List.map_append, ← wireEvents_map_eraseLevel, he, wireEvents_map_eraseLevel]
    rfl
  · rw [h'.frame, h.frame, ← frameAfter_map_eraseLevel, he, frameAfter_map_eraseLevel]
    rfl
  · rw [h'.dioDir, h.dioDir, hcount]
    rfl

/-- Settles O45: the samples reach the sampled levels of the items and the ACK bit of the result, and no register reads either. -/
theorem acknowledgementsChangeOnlyReports : Obligations.AcknowledgementsChangeOnlyReports := by
  unfold Obligations.AcknowledgementsChangeOnlyReports
  intro i s t d n h
  have ha : s.accepts := exec_next_accepts h
  obtain ⟨t', h'⟩ := exec_completes i (s := s.withSamples d n) ha
  obtain ⟨w, r⟩ := exec_next h
  obtain ⟨w', r'⟩ := exec_next h'
  obtain ⟨htrace, hframe, hclk, hdio, hdir⟩ := w'.agree_of_withSamples w (itemsOf_withSamples i s d n)
  obtain ⟨hpwr, hbrt, hcod, hlife⟩ := r'.agree r
  refine ⟨t', resultOf i s, resultOf i (s.withSamples d n), h', htrace, r.results, r'.results,
    (resultOf_withSamples_and_not_ack i s d n).symm,
    fun hi => (resultOf_withSamples_of_not_reportsAck hi s d n).symm, ?_⟩
  exact State.ext_fields (w'.cfg.trans w.cfg.symm) (hpwr rfl) (hbrt rfl) (hcod rfl) hclk (w'.clkDir.trans w.clkDir.symm) hdio
    hdir hframe (hlife rfl) rfl (w'.built.trans w.built.symm) (w'.inputs.trans w.inputs.symm) rfl rfl rfl

end Sys2Proof.Machine

/-! # Proofs about the framer (`41_framer.md`)

The framer's operations one by one (R120 to R129). Then, of every operation, which items drive a START condition (R120, R244): each item's
conditions depend on the levels it finds, those are the levels the item before it left, and every operation but STOP orders its items so
that a START finds DIO high and a STOP does not find both lines high. -/

namespace Sys2Proof.Machine

open Sys2Proof

/-! ### START and STOP (R125, R126) -/

theorem finish_accepts {s : State} (ha : s.accepts) (e : State → State) :
    finish s e = .next ((e s).respond resultVoid) :=
  whenOpen_accepts ha.1 ha.2 _

/-- Settles O17: START is `Start()`, with a result of zeros. -/
theorem startOpensFrame : Obligations.StartOpensFrame := by
  unfold Obligations.StartOpensFrame
  intro s ha
  refine (finish_accepts ha startCond).trans ?_
  rw [startCond_eq]
  rfl

/-- Settles O18: STOP is `Stop()`, with a result of zeros. -/
theorem stopClosesFrame : Obligations.StopClosesFrame := by
  unfold Obligations.StopClosesFrame
  intro s ha
  refine (finish_accepts ha stopCond).trans ?_
  rw [stopCond_eq]
  rfl

/-! ### SEND_CMD and SEND_DATA (R127, R128) -/

/-- Settles O19: SEND_CMD is `Cmd(b, stop)`, with the acknowledgement returned. -/
theorem sendCmdFramesOneByte : Obligations.SendCmdFramesOneByte := by
  unfold Obligations.SendCmdFramesOneByte
  intro b stop s ha l
  refine (finishAck_accepts ha (cmd b stop)).trans ?_
  cases stop with
  | false => rw [cmd_open, resultAck_ackOf]; rfl
  | true => rw [cmd_stop, resultAck_ackOf]; rfl

/-- Settles O20: SEND_DATA is `Data(b, stop)`, with the acknowledgement returned, and `Data(b, false)` is `Tx(b)`. -/
theorem sendDataContinuesFrame : Obligations.SendDataContinuesFrame := by
  unfold Obligations.SendDataContinuesFrame
  intro b stop s ha l
  refine ⟨(finishAck_accepts ha (data b stop)).trans ?_, rfl⟩
  cases stop with
  | false => rw [data_open, resultAck_ackOf]; rfl
  | true => rw [data_stop, resultAck_ackOf]; rfl

/-! ### BEGIN_WRITE (R124, R129) -/

/-- The position-select command of a saturated position, as R53 and R54 write it. -/
theorem addr_sat_eq (c : Config) (p : Byte) :
    addr c (sat p) = c.cmdAddrBase + BitVec.ofNat 8 (min (max p.toNat 1) 6 - 1) := by
  have hoffset : sat p - 1#8 = BitVec.ofNat 8 (min (max p.toNat 1) 6 - 1) := by
    apply BitVec.eq_of_toNat_eq
    rw [sat_sub_one_toNat, sat_toNat, BitVec.toNat_ofNat]
    split_ifs <;> omega
  rw [addr, hoffset]

/-- Settles O21: BEGIN_WRITE is `Begin(p)`, two STARTs and two byte slots, with the second acknowledgement returned. -/
theorem beginWriteLeavesFrameOpen : Obligations.BeginWriteLeavesFrameOpen := by
  unfold Obligations.BeginWriteLeavesFrameOpen
  intro p s ha items
  have hitems : beginSlots s 0 p = items := by rw [beginSlots, addr_sat_eq]
  constructor
  · refine (finishAck_accepts ha (beginAt p)).trans ?_
    rw [beginAt_eq, hitems, resultAck_ackOf]
    rfl
  · simp [items, wireEvents, Slot.events, length_byteSlot]

/-! ### The conditions of one item (R120, R121, R242)

What an item drives, from any levels (CLK_LVL, DIO_LVL) it finds. -/

theorem conditions_append (c d : Level) (a b : List PinEvent) :
    conditions c d (a ++ b) = conditions c d a ++ conditions (lastLevel .clk c a) (lastLevel .dio d a) b := by
  induction a generalizing c d with
  | nil => rfl
  | cons e a ih =>
    cases e with
    | lvl p l => cases p <;> simp [conditions, lastLevel, ih]
    | dir _ _ | rd _ _ => exact ih c d

theorem conditions_start (c d : Level) : conditions c d Slot.start.events = if d = .low then [] else [.start] := by
  cases d <;> rfl

/-- A bit slot moves DIO while CLK is low. -/
theorem conditions_bitSlot (c d : Level) (v : Bool) : conditions c d (bitSlot v) = [] := rfl

theorem conditions_flatMap_bitSlot (c d : Level) (bits : List Bool) : conditions c d (bits.flatMap bitSlot) = [] := by
  induction bits generalizing c d with
  | nil => rfl
  | cons v bits ih => rw [List.flatMap_cons, conditions_append, conditions_bitSlot, ih, List.nil_append]

/-- An acknowledgement slot only raises DIO. -/
theorem start_notMem_conditions_ackSlot (c d l : Level) : Condition.start ∉ conditions c d (ackSlot l) := by
  cases d <;> simp [ackSlot, conditions]

theorem start_notMem_conditions_byteSlot (c d : Level) (b : Byte) (l : Level) :
    Condition.start ∉ conditions c d (byteSlot b l) := by
  rw [byteSlot_eq_flatMap, conditions_append, conditions_flatMap_bitSlot, List.nil_append]
  exact start_notMem_conditions_ackSlot _ _ l

/-- An item other than START drives no START condition, but for a STOP that finds both lines high (R244). -/
theorem start_notMem_conditions {x : Slot} (hx : x ≠ .start) {c d : Level} (hstop : x = .stop → c = .low ∨ d = .low) :
    Condition.start ∉ conditions c d x.events := by
  cases x with
  | start => exact absurd rfl hx
  | byte b l => exact start_notMem_conditions_byteSlot c d b l
  | reset => cases d <;> simp [Slot.events, conditions]
  | stop =>
    cases d with
    | low => simp [Slot.events, conditions]
    | high =>
      have hclk : c = .low := (hstop rfl).resolve_right nofun
      simp [Slot.events, conditions, hclk]

/-! ### The order of an operation's items (R36, R90) -/

/-- `y` may stand straight after `x`: a START does not repeat, so it finds DIO high, and a STOP comes after a byte, so it finds CLK low. -/
def MayFollow (x y : Slot) : Prop := (y = .start → x ≠ .start) ∧ (y = .stop → ∃ b l, x = .byte b l)

theorem isChain_bytesFrom_stop (s : State) {r : List Slot} (hr : (Slot.stop :: r).IsChain MayFollow) (bs : List Byte)
    (k : Nat) (b : Byte) (l : Level) : (Slot.byte b l :: (bytesFrom s k bs ++ .stop :: r)).IsChain MayFollow := by
  induction bs generalizing k b l with
  | nil => exact .cons_cons (by simp [MayFollow]) hr
  | cons b' bs ih => exact .cons_cons (by simp [MayFollow]) (ih (k + 1) b' _)

/-- The block's own frames start with a START and end with a STOP, so they may follow a STOP and one another. -/
theorem FrameRun.isChain_stop_cons {s : State} {items : List Slot} (h : FrameRun s items) :
    (Slot.stop :: items).IsChain MayFollow := by
  induction h with
  | nil => exact .singleton _
  | @write k p bs r _ _ _ ih =>
    rw [writeSlots_append]
    simpa [beginSlots, MayFollow] using isChain_bytesFrom_stop s ih bs (k + 2) _ _
  | control _ _ ih => simpa [controlSlots, MayFollow] using ih

/-- The items of every operation but STOP may follow a STOP: none of them begins with one. -/
theorem isChain_stop_cons_itemsOf {i : Instr} (hi : i ≠ .stop) (s : State) :
    (Slot.stop :: itemsOf i s).IsChain MayFollow := by
  cases i with
  | stop => exact absurd rfl hi
  | txByte | start | beginWrite | decode | setCoding => simp [itemsOf, beginSlots, MayFollow]
  | sendCmd b st | sendData b st => cases st <;> simp [itemsOf, MayFollow]
  | clear | setBlank | testAll | setInt | setHours | setMinutes | close | setPower | setBright =>
    exact (frameRun_itemsOf rfl s).isChain_stop_cons

/-! ### START conditions along a run of items (R120, R244; log entry 18) -/

/-- The conditions an item drives after a run of items, from the levels the run leaves. -/
def conditionsAfter (c d : Level) (a : List Slot) (x : Slot) : List Condition :=
  conditions (lastLevel .clk c (wireEvents a)) (lastLevel .dio d (wireEvents a)) x.events

theorem conditions_wireEvents_concat (c d : Level) (a : List Slot) (x : Slot) :
    conditions c d (wireEvents (a ++ [x])) = conditions c d (wireEvents a) ++ conditionsAfter c d a x := by
  rw [wireEvents_append, conditions_append]
  simp [conditionsAfter, wireEvents]

/-- A run of items leaves the levels of its last one. -/
theorem conditionsAfter_concat (c d : Level) (a : List Slot) (y x : Slot) :
    conditionsAfter c d (a ++ [y]) x =
      conditions (linesAfter (c, d) [y]).1 (linesAfter (c, d) [y]).2 x.events := by
  have hlast : linesAfter (c, d) (a ++ [y]) = linesAfter (c, d) [y] := by
    rw [linesAfter_append]
    cases y <;> rfl
  rw [← hlast, lastLevel_wireEvents]
  rfl

/-- Where items follow one another as an operation's do, a START drives its condition, but for a first one that finds DIO low, and no
other item drives one. -/
theorem conditionsAfter_of_isChain {a b : List Slot} {x : Slot} (h : (Slot.stop :: (a ++ x :: b)).IsChain MayFollow)
    (c d : Level) :
    (x = .start → conditionsAfter c d a x = if a = [] ∧ d = .low then [] else [.start]) ∧
      (x ≠ .start → Condition.start ∉ conditionsAfter c d a x) := by
  obtain rfl | ⟨a, y, rfl⟩ := a.eq_nil_or_concat'
  · obtain ⟨-, hstop⟩ : MayFollow .stop x := (List.isChain_cons_cons.mp h).1
    constructor
    · rintro rfl
      simpa [conditionsAfter, wireEvents, lastLevel] using conditions_start c d
    · exact fun hx => start_notMem_conditions hx fun hs => by simpa using hstop hs
  · obtain ⟨hstart, hstop⟩ : MayFollow y x :=
      List.isChain_iff_forall_rel_of_append_cons_cons.mp h (l₁ := .stop :: a) (l₂ := b) (by simp)
    rw [conditionsAfter_concat]
    constructor
    · intro hx
      have hdio : (linesAfter (c, d) [y]).2 = .high := by
        cases y with
        | start => exact absurd rfl (hstart hx)
        | reset | stop | byte => rfl
      simp [hx, conditions_start, hdio]
    · refine fun hx => start_notMem_conditions hx fun hs => .inl ?_
      obtain ⟨b, l, rfl⟩ := hstop hs
      rfl

theorem startCount_concat (a : List Slot) (x : Slot) :
    startCount (a ++ [x]) = startCount a + if x = .start then 1 else 0 := by
  induction a with
  | nil => cases x <;> rfl
  | cons y a ih =>
    cases y <;> simp only [List.cons_append, startCount, ih]
    omega

/-- With DIO high before, such items drive as many START conditions as they hold STARTs. -/
theorem count_start_of_isChain {items : List Slot} (h : (Slot.stop :: items).IsChain MayFollow) (c : Level) :
    (conditions c .high (wireEvents items)).count .start = startCount items := by
  induction items using List.reverseRecOn with
  | nil => rfl
  | append_singleton a x ih =>
    obtain ⟨hstart, hother⟩ := conditionsAfter_of_isChain h c .high
    have hx : (conditionsAfter c .high a x).count .start = if x = .start then 1 else 0 := by
      split
      · next hx => simp [hstart hx]
      · next hx => exact List.count_eq_zero.mpr (hother hx)
    rw [conditions_wireEvents_concat, List.count_append, hx, startCount_concat,
      ih (List.IsChain.left_of_append (l₁ := .stop :: a) h)]

/-- Settles O47: the order of an operation's items says what levels each of them finds. -/
theorem everyStartIsAFallingEdge : Obligations.EveryStartIsAFallingEdge := by
  unfold Obligations.EveryStartIsAFallingEdge
  intro i s t hi h
  obtain ⟨wire, -⟩ := exec_next h
  have chain := isChain_stop_cons_itemsOf hi s
  refine ⟨itemsOf i s, wire.trace, fun a b x hitems => ?_, fun hdio => ?_⟩
  · rw [hitems] at chain
    exact conditionsAfter_of_isChain chain s.clkLvl s.dioLvl
  · rw [hdio]
    exact count_start_of_isChain chain s.clkLvl

end Sys2Proof.Machine

/-! # Proofs about the sequences (`42_sequences.md`)

The events of a write frame (R140, R141), what CLOSE does after its clear (R149), and the closed form of SET_INT's digit loop (R145, R146):
the loop's length is the number of decimal digits, `Nat.log 10 m + 1`, up to the positions left, and its j-th turn works on `m / 10 ^ j`. -/

namespace Sys2Proof.Machine

open Sys2Proof

/-! ### Write frames (R140 to R144) -/

theorem length_wireEvents_bytesFrom (s : State) (k : Nat) (bs : List Byte) :
    (wireEvents (bytesFrom s k bs)).length = 31 * bs.length := by
  induction bs generalizing k with
  | nil => rfl
  | cons b bs ih =>
    rw [bytesFrom, wireEvents_cons, List.length_append, ih, Slot.events, length_byteSlot, List.length_cons]
    omega

theorem length_wireEvents_beginSlots (s : State) (k : Nat) (p : Byte) :
    (wireEvents (beginSlots s k p)).length = 66 := by
  simp [beginSlots, wireEvents, Slot.events, length_byteSlot]

/-- A write frame has the 66 events of its begin, 31 for each byte, and 3 for its STOP (R251). -/
theorem length_wireEvents_writeSlots (s : State) (k : Nat) (p : Byte) (bs : List Byte) :
    (wireEvents (writeSlots s k p bs)).length = 31 * bs.length + 69 := by
  have hstop : (wireEvents [.stop]).length = 3 := rfl
  rw [writeSlots, wireEvents_append, wireEvents_append, List.length_append, List.length_append,
    length_wireEvents_beginSlots, length_wireEvents_bytesFrom, hstop]
  omega

/-- A void operation returns a word of zeros (R76). -/
theorem finish_accepts_zero {s : State} (ha : s.accepts) (e : State → State) : finish s e = .next ((e s).respond 0#16) :=
  finish_accepts ha e

/-- Settles O23: CLEAR and TEST_ALL are `Fill6(b)`, one write frame of six bytes from position 1. -/
theorem fillWritesSixPositions : Obligations.FillWritesSixPositions := by
  unfold Obligations.FillWritesSixPositions
  intro s ha
  have hfill : ∀ b, finish s (fill6 b) = .next ((s.afterFrames (writeSlots s 0 1#8 [b, b, b, b, b, b])).respond 0#16) :=
    fun b => by rw [finish_accepts_zero ha, fill6_eq]
  refine ⟨hfill blankByte, hfill allByte, fun b => ⟨length_wireEvents_writeSlots s 0 1#8 _, ?_⟩⟩
  rw [memWrites_writeSlots]
  rfl

/-- Settles O24: `Write1(p, b)` is one write frame of one byte, and SET_BLANK is it with the blank byte. -/
theorem setBlankWritesOnePosition : Obligations.SetBlankWritesOnePosition := by
  unfold Obligations.SetBlankWritesOnePosition
  intro p b s
  refine ⟨write1_eq p b s, length_wireEvents_writeSlots s 0 p [b], ?_, fun ha => ?_⟩
  · rw [write1_eq]
    rfl
  · refine (finish_accepts_zero ha (write1 p blankByte)).trans ?_
    rw [write1_eq]
    rfl

/-! ### CLOSE (R149) -/

theorem controlSlots_of_dropped {s t : State} {n : Nat} (hd : t.draws = s.draws.drop n) (hn : t.drawn = s.drawn + n)
    (hc : t.cfg = s.cfg) (k : Nat) (c : Byte) : controlSlots t k c = controlSlots s (n + k) c := by
  simp [controlSlots, levelAt_of_dropped hd hn, hc, Nat.add_assoc]

/-- A step of 0 sends the base code itself (R86). -/
theorem disp_zero (c : Config) (on : Bool) : disp c on 0#3 = dispBase c on := by
  simp [disp]

/-- `PowerSeq(on)` after other frames: its two frames follow theirs, and PWR is written. -/
theorem powerSeq_afterFrames (on : Bool) (s : State) (a : List Slot) :
    powerSeq on (s.afterFrames a) =
      (s.afterFrames (a ++ controlSlots s (byteCount a) (dispBase s.cfg on))).setPwr on := by
  have hslots : controlSlots (s.afterFrames a) 0 (dispBase s.cfg on) = controlSlots s (byteCount a) (dispBase s.cfg on) :=
    controlSlots_of_dropped (s := s) (t := s.afterFrames a) rfl rfl rfl 0 _
  rw [powerSeq_eq, disp_zero, afterFrames_cfg, hslots, ← afterFrames_afterFrames]
  rfl

/-- Settles O28: CLOSE is the clear frame of eight bytes, then `PowerSeq(off)`, then the change of LIFE. -/
theorem closeClearsAndPowersOff : Obligations.CloseClearsAndPowersOff := by
  unfold Obligations.CloseClearsAndPowersOff
  intro s ha items
  rw [exec, execClose, finish_accepts_zero ha, fill6_eq, powerSeq_afterFrames, byteCount_writeSlots]
  rfl

/-! ### Clock fields (R147, R148) -/

/-- Packed decode at index 0 is the ones digit, zero included. -/
theorem decP_index_zero (v : Value) : decP v 0#8 = rom (v.toNat % 10) := by
  by_cases hv : v = 0#32
  · subst hv
    exact decP_zero 0#8
  · have hpos : v.toNat ≠ 0 := fun h0 => hv (BitVec.eq_of_toNat_eq h0)
    simp [decP, clampIdx, hv, hpos]

theorem rom_ne_blankByte {n : Nat} (h : n < 10) : rom n ≠ blankByte := by
  have hrom : blankByte ∉ romBytes := by decide
  exact fun hn => hrom (hn ▸ rom_mem_romBytes h)

/-- The tens digit of a clock field: of 1 to 9 it is blank, or zero where `zero` is set, and of every other value it is
the decimal digit. -/
theorem tensByte_eq (v : Value) (zero : Bool) :
    tensByte v zero = if v ≠ 0#32 ∧ v.toNat < 10 ∧ zero = false then 0x00 else rom (v.toNat / 10 % 10) := by
  by_cases hblank : v ≠ 0#32 ∧ v.toNat < 10
  · obtain ⟨hne, hlt⟩ := hblank
    have hdec : decP v 1#8 = blankByte := by simp [decP, clampIdx, hne, hlt]
    have hdigit : v.toNat / 10 = 0 := Nat.div_eq_of_lt hlt
    cases zero <;> simp [tensByte, hdec, hne, hlt, hdigit, blankByte]
  · have hdec : decP v 1#8 = rom (v.toNat / 10 % 10) := by
      by_cases hv : v = 0#32
      · subst hv
        exact decP_zero 1#8
      · have hle : ¬ v.toNat < 10 := fun hlt => hblank ⟨hv, hlt⟩
        simp [decP, clampIdx, hv, hle]
    have hshown : ¬ (rom (v.toNat / 10 % 10) = blankByte ∧ zero = true) :=
      fun h => rom_ne_blankByte (Nat.mod_lt _ (by decide)) h.1
    rw [tensByte, hdec, if_neg hshown, if_neg fun h => hblank ⟨h.1, h.2.1⟩]

theorem onesByte_eq (v : Value) (colon : Bool) :
    onesByte v colon = rom (v.toNat % 10) ||| if colon then 0x80#8 else 0x00#8 := by
  cases colon <;> simp [onesByte, decP_index_zero, colonBit]

/-- Settles O27: each clock field is one write frame of its tens byte and its ones byte. -/
theorem clockFieldsShowTwoDigits : Obligations.ClockFieldsShowTwoDigits := by
  unfold Obligations.ClockFieldsShowTwoDigits
  intro v colon zero s ha tens ones
  constructor
  · rw [exec, execSetHours, finish_accepts_zero ha, stream_beginAt _ _ (by simp), tensByte_eq, onesByte_eq]
  · rw [exec, execSetMinutes, finish_accepts_zero ha, stream_beginAt _ _ (by simp), tensByte_eq, decP_index_zero]

/-! ### The operand of SET_INT (R145, D14) -/

theorem magnitude_eq_abs (n : Value) : magnitude n = n.abs := by
  rw [magnitude, isNeg, ← BitVec.msb_eq_toInt, BitVec.zero_sub]
  rfl

/-- The magnitude does not wrap: -2^31 gives 2^31. -/
theorem toNat_magnitude (n : Value) : (magnitude n).toNat = n.toInt.natAbs := by
  have := n.isLt
  rw [magnitude_eq_abs, BitVec.toNat_abs, BitVec.toInt_eq_msb_cond]
  split <;> omega

theorem natAbs_toInt_lt (n : Value) : n.toInt.natAbs < 2 ^ 32 :=
  toNat_magnitude n ▸ (magnitude n).isLt

theorem magnitude_eq_zero_iff (n : Value) : magnitude n = 0#32 ↔ n = 0#32 := by
  rw [← BitVec.toNat_inj, toNat_magnitude, ← BitVec.toInt_inj]
  simp

/-! ### The digit loop of SET_INT (R145, R146) -/

theorem toNat_div_ten (w : Value) : (w / 10#32).toNat = w.toNat / 10 := by
  rw [BitVec.toNat_udiv]
  rfl

/-- The loop stops after the last digit: a value that divides to 0 has one digit. -/
theorem div_ten_eq_zero_iff (w : Value) : w / 10#32 = 0#32 ↔ w.toNat < 10 := by
  rw [← BitVec.toNat_inj, toNat_div_ten, BitVec.toNat_ofNat, Nat.zero_mod, Nat.div_eq_zero_iff]
  omega

/-- The loop from position `pos` in closed form: one turn for each decimal digit, as far as there are positions. -/
theorem intDigits_eq_map_range (cod : Coding) (colon : Bool) (pos : Nat) (w : Value) :
    intDigits cod colon pos w = (List.range (min pos (Nat.log 10 w.toNat + 1))).map fun j =>
      (pos - j, intDigit cod (pos - j) (BitVec.ofNat 32 (w.toNat / 10 ^ j)) colon) := by
  induction pos generalizing w with
  | zero => simp [intDigits]
  | succ pos ih =>
    have hrest : (if w / 10#32 = 0#32 then [] else intDigits cod colon pos (w / 10#32)) =
        (List.range (min pos (Nat.log 10 w.toNat))).map fun j =>
          (pos - j, intDigit cod (pos - j) (BitVec.ofNat 32 (w.toNat / 10 / 10 ^ j)) colon) := by
      split_ifs with h
      · rw [Nat.log_of_lt ((div_ten_eq_zero_iff w).mp h), Nat.min_zero]
        rfl
      · have hlog : 0 < Nat.log 10 w.toNat :=
          Nat.log_pos (by decide) (Nat.le_of_not_lt (mt (div_ten_eq_zero_iff w).mpr h))
        rw [ih, toNat_div_ten, Nat.log_div_base, Nat.sub_add_cancel hlog]
    rw [intDigits, hrest, Nat.add_min_add_right, List.range_succ_eq_map, List.map_cons, List.map_map]
    simp [Function.comp_def, Nat.pow_succ', Nat.div_div_eq_div_mul]

/-- R146's digit count is that of the decimal expansion, up to 4. -/
theorem digitsShown_eq (n : Value) : digitsShown n = min 4 (Nat.log 10 n.toInt.natAbs + 1) := by
  have hlt : ∀ k, k ≠ 0 → (Nat.log 10 n.toInt.natAbs < k ↔ n.toInt.natAbs < 10 ^ k) :=
    fun k hk => ⟨Nat.lt_pow_of_log_lt (by decide), Nat.log_lt_of_lt_pow' hk⟩
  have h1 := hlt 1 (by decide)
  have h2 := hlt 2 (by decide)
  have h3 := hlt 3 (by decide)
  simp only [digitsShown]
  split_ifs <;> omega

theorem intDigit_eq (cod : Coding) (pos : Nat) (w : Value) (colon : Bool) :
    intDigit cod pos w colon = dec cod w 0#8 ||| if pos = 2 ∧ colon = true then 0x80#8 else 0x00#8 := by
  unfold intDigit
  split_ifs
  · rfl
  · exact BitVec.or_zero.symm

/-- The digits SET_INT writes are those of R146's closed form. -/
theorem intDigits_magnitude (cod : Coding) (n : Value) (colon : Bool) :
    intDigits cod colon nposLogical (magnitude n) = (List.range (digitsShown n)).map fun j =>
      (4 - j, dec cod (BitVec.ofNat 32 (n.toInt.natAbs / 10 ^ j)) 0#8 |||
        (if j = 2 ∧ colon = true then 0x80#8 else 0x00#8)) := by
  rw [intDigits_eq_map_range, toNat_magnitude, digitsShown_eq]
  refine List.map_congr_left fun j hj => ?_
  have hj4 : j < 4 := Nat.lt_of_lt_of_le (List.mem_range.mp hj) (Nat.min_le_left _ _)
  have hpos : 4 - j = 2 ↔ j = 2 := by omega
  simp only [intDigit_eq, nposLogical, hpos]

/-- The writes of R145's pseudocode are R146's. -/
theorem intWrites_eq_intShown (cod : Coding) (n : Value) (colon : Bool) : intWrites cod n colon = intShown cod n colon := by
  have hsign : (isNeg n = true ∧ digitsShown n < 3) ↔ signShown n = true := by simp [isNeg, signShown]
  unfold intWrites intShown
  simp only [magnitude_eq_zero_iff, intDigits_magnitude, List.length_map, List.length_range, hsign]
  split_ifs
  · rfl
  · rfl
  · rw [List.append_nil]

/-- Settles O25: the writes of the loop are those of the closed form, and each write is one frame. -/
theorem setIntWritesItsDigits : Obligations.SetIntWritesItsDigits := by
  unfold Obligations.SetIntWritesItsDigits
  intro n colon s ha
  rw [exec, execSetInt, finish_accepts_zero ha, writeAll_eq _ (intWrites_ne_nil _ _ _), intWrites_eq_intShown]

/-- A quotient of the magnitude, decoded at index 0, is a decimal digit of the magnitude. -/
theorem decP_magnitude_digit (n : Value) (j : Nat) :
    decP (BitVec.ofNat 32 (n.toInt.natAbs / 10 ^ j)) 0#8 = rom (n.toInt.natAbs / 10 ^ j % 10) := by
  rw [decP_index_zero, BitVec.toNat_ofNat,
    Nat.mod_eq_of_lt (Nat.lt_of_le_of_lt (Nat.div_le_self _ _) (natAbs_toInt_lt n))]

/-- Settles O26: the j-th write of the closed form, with its packed decode read as a decimal digit. -/
theorem setIntShowsDecimalDigits : Obligations.SetIntShowsDecimalDigits := by
  unfold Obligations.SetIntShowsDecimalDigits
  intro n colon j hn hj
  rw [intWrites_eq_intShown, intShown, if_neg hn, List.getElem?_append_left (by simpa using hj), List.getElem?_map,
    List.getElem?_range hj, Option.map_some, dec, decP_magnitude_digit]

end Sys2Proof.Machine

/-! # Proofs about the digit decoder's operations (`43_digit_decode.md`)

Packed decode reads a decimal digit of the value (R171) and raw decode a byte of it (R172); DECODE returns what the decoder of COD gives
(R175), and SET_CODING writes COD (R176). -/

namespace Sys2Proof.Machine

open Sys2Proof

theorem clampIdx_eq_min (i : Byte) : clampIdx i = min i.toNat 3 := by
  unfold clampIdx
  split <;> omega

/-! ### DECODE returns the byte of COD's decoder (R173, R175) -/

/-- The byte stands below eight zeros (R76). -/
theorem resultByte_eq_append (b : Byte) : resultByte b = 0x00#8 ++ b := rfl

theorem exec_decode_accepts {s : State} (ha : s.accepts) (v : Value) (i : Byte) :
    exec (.decode v i) s = .next (s.respond (0x00#8 ++ dec s.cod v i)) := by
  rw [exec, execDecode, whenOpen_accepts ha.1 ha.2, resultByte_eq_append]

/-! ### Packed decode reads a decimal digit (R171) -/

theorem decP_of_lt {v : Value} {i : Byte} (hv : v ≠ 0#32) (h : v.toNat < 10 ^ clampIdx i) : decP v i = blankByte := by
  simp only [decP, if_neg hv, if_pos h]

theorem decP_of_le {v : Value} {i : Byte} (hv : v ≠ 0#32) (h : 10 ^ clampIdx i ≤ v.toNat) :
    decP v i = rom (v.toNat / 10 ^ clampIdx i % 10) := by
  simp only [decP, if_neg hv, if_neg (Nat.not_lt.mpr h)]

theorem getElem?_digits_of_lt {n k : Nat} (h : n < 10 ^ k) : (Nat.digits 10 n)[k]? = none :=
  List.getElem?_eq_none ((Nat.digits_length_le_iff (by decide) n).mpr h)

theorem getElem?_digits_of_le {n k : Nat} (h : 10 ^ k ≤ n) : (Nat.digits 10 n)[k]? = some (n / 10 ^ k % 10) := by
  have hk : k < (Nat.digits 10 n).length := (Nat.lt_digits_length_iff (by decide) n).mpr h
  rw [List.getElem?_eq_getElem hk, ← Nat.getD_digits n k (by decide), List.getD_eq_getElem _ _ hk]

/-- A nonzero value has a digit at the clamped index exactly when it is at least that power of ten. -/
theorem decP_eq_digit {v : Value} (hv : v ≠ 0#32) (i : Byte) :
    decP v i = (Nat.digits 10 v.toNat)[clampIdx i]?.elim blankByte rom := by
  rcases Nat.lt_or_ge v.toNat (10 ^ clampIdx i) with h | h
  · rw [decP_of_lt hv h, getElem?_digits_of_lt h, Option.elim_none]
  · rw [decP_of_le hv h, getElem?_digits_of_le h, Option.elim_some]

/-- Settles O30: zero shows the pattern of 0 at every index, and every other value its digit at the clamped index. -/
theorem decodePackedReadsDecimalDigit : Obligations.DecodePackedReadsDecimalDigit := by
  unfold Obligations.DecodePackedReadsDecimalDigit
  intro v i s ha hcod
  rw [exec_decode_accepts ha, hcod, dec]
  by_cases hv : v = 0#32
  · rw [if_pos hv, hv, decP_zero]
    rfl
  · rw [if_neg hv, decP_eq_digit hv, clampIdx_eq_min]
    cases (Nat.digits 10 v.toNat)[min i.toNat 3]? <;> rfl

/-! ### Raw decode reads a byte (R172) -/

theorem getLsbD_decR (v : Value) (i : Byte) {k : Nat} (hk : k < 8) :
    (decR v i).getLsbD k = v.getLsbD (8 * clampIdx i + k) := by
  simp [decR, hk]

/-- Settles O31: DECODE returns raw decode's byte, whose bits are the value's from the clamped index's byte up. -/
theorem decodeRawReadsByte : Obligations.DecodeRawReadsByte := by
  unfold Obligations.DecodeRawReadsByte
  intro v i s ha hcod
  refine ⟨decR v i, ?_, fun k hk => ?_⟩
  · rw [exec_decode_accepts ha, hcod, dec]
  · rw [getLsbD_decR v i hk, clampIdx_eq_min]

/-! ### SET_CODING writes COD (R176) -/

/-- Settles O33: a void operation whose effect is the write of COD. -/
theorem setCodingWritesCod : Obligations.SetCodingWritesCod := by
  unfold Obligations.SetCodingWritesCod
  intro m s ha
  rw [exec, execSetCoding, finish_accepts_zero ha, State.setCod, State.respond]

end Sys2Proof.Machine

/-! # Proofs about power and brightness (`44_power_brightness.md`)

SET_POWER and SET_BRIGHT write their register and send two one-byte frames (R190, R191, R192); the display-control byte holds the step below
the base code's high five bits (R193). -/

namespace Sys2Proof.Machine

open Sys2Proof

/-! ### SET_POWER and SET_BRIGHT (R190 to R192) -/

/-- Settles O34: `PowerSeq(on)` after the write of PWR; with step 0 its second byte is the base code. -/
theorem setPowerSendsBaseCode : Obligations.SetPowerSendsBaseCode := by
  unfold Obligations.SetPowerSendsBaseCode
  intro on s ha
  rw [exec, execSetPower, finish_accepts_zero ha, powerSeq_eq, disp_zero]
  rfl

/-- R193: the step is exact over the whole domain. -/
theorem toNat_brightStep (l : Byte) : (brightStep l).toNat = l.toNat / 32 := by
  have hlt : l.toNat / 32 < 2 ^ 3 := Nat.div_lt_of_lt_mul l.isLt
  rw [brightStep, BitVec.toNat_setWidth, BitVec.toNat_udiv]
  exact Nat.mod_eq_of_lt hlt

theorem brightStep_eq_ofNat (l : Byte) : brightStep l = BitVec.ofNat 3 (l.toNat / 32) := by
  rw [← toNat_brightStep, BitVec.ofNat_toNat, BitVec.setWidth_eq]

/-- Settles O35: `BrightSeq(l)` after the write of BRT, with PWR as recorded. -/
theorem setBrightSendsStep : Obligations.SetBrightSendsStep := by
  unfold Obligations.SetBrightSendsStep
  intro l s ha step
  rw [exec, execSetBright, finish_accepts_zero ha, brightSeq_eq, brightStep_eq_ofNat]
  rfl

/-! ### The brightness laws (R193) -/

/-- R87: the base code of either power state leaves the step's bits free. -/
theorem extractLsb'_dispBase_low {c : Config} (hc : c.wf = true) (on : Bool) : (dispBase c on).extractLsb' 0 3 = 0#3 := by
  obtain ⟨-, hon, hoff⟩ := (wf_iff c).mp hc
  cases on
  · exact hoff
  · exact hon

theorem extractLsb'_disp_low {c : Config} (hc : c.wf = true) (on : Bool) (x : BitVec 3) :
    (disp c on x).extractLsb' 0 3 = x := by
  rw [disp, BitVec.extractLsb'_or, extractLsb'_dispBase_low hc, BitVec.zero_or,
    BitVec.extractLsb'_setWidth_of_le (by decide), BitVec.extractLsb'_eq_self]

/-- The step has no bit above the low three, so the high five are the base code's, in any configuration. -/
theorem extractLsb'_disp_high (c : Config) (on : Bool) (x : BitVec 3) :
    (disp c on x).extractLsb' 3 5 = (dispBase c on).extractLsb' 3 5 := by
  have hstep : (x.setWidth 8).extractLsb' 3 5 = 0#5 := by
    ext i hi
    simp
  rw [disp, BitVec.extractLsb'_or, hstep, BitVec.or_zero]

/-- The mask keeps the high five bits in place. -/
theorem and_highMask_eq (b : Byte) : b &&& 0xF8#8 = b.extractLsb' 3 5 ++ 0#3 := by
  have hmask : 0xF8#8 = BitVec.allOnes 5 ++ 0#3 := rfl
  have hsplit : b.extractLsb' 3 5 ++ b.extractLsb' 0 3 = b :=
    (BitVec.extractLsb'_append_extractLsb'_eq_extractLsb' rfl).trans BitVec.extractLsb'_eq_self
  conv_lhs => rw [← hsplit, hmask, BitVec.and_append, BitVec.and_allOnes, BitVec.and_zero]

/-- Settles O36: the step fills the three bits R87 keeps free, and the high five bits do not depend on it. -/
theorem brightnessLaws : Obligations.BrightnessLaws := by
  unfold Obligations.BrightnessLaws
  refine ⟨toNat_brightStep, fun c on l hc => ⟨extractLsb'_disp_low hc on _, extractLsb'_disp_high c on _⟩,
    fun c on l m _ => ?_⟩
  rw [and_highMask_eq, BitVec.extractLsb'_xor, extractLsb'_disp_high, extractLsb'_disp_high, BitVec.xor_self,
    BitVec.zero_append_zero]

end Sys2Proof.Machine

/-! # Proofs about refusals (`60_exceptions.md`)

Every operation completes where the block accepts it and is refused with REASON 3 while it is CLOSED (R212, R219); the decoder's answer to a
word decides the lower REASONs first (R213); and the port answers a refused input and changes nothing else (R211). -/

namespace Sys2Proof.Machine

open Sys2Proof

/-! ### Operations in the states of LIFE (R212, R219) -/

/-- Settles O14: each operation is an effect behind the one acceptance check. -/
theorem everyOperationCompletes : Obligations.EveryOperationCompletes := by
  unfold Obligations.EveryOperationCompletes
  intro i s ha
  exact exec_completes i ha

theorem whenOpen_of_closed {s : State} (hb : s.built = true) (hl : s.life = .closed) (e : State → State) :
    whenOpen s e = .refused .closed := by
  simp [whenOpen, hb, hl]

theorem exec_of_closed (i : Instr) {s : State} (hb : s.built = true) (hl : s.life = .closed) :
    exec i s = .refused .closed := by
  obtain ⟨e, he⟩ := exec_eq_whenOpen i
  rw [he, whenOpen_of_closed hb hl]

/-- Settles O11: no operation completes in a CLOSED state, so a step from it waits or takes a reset. -/
theorem onlyResetLeavesClosed : Obligations.OnlyResetLeavesClosed := by
  unfold Obligations.OnlyResetLeavesClosed
  refine ⟨fun i s hb hl => exec_of_closed i hb hl, rfl, fun s t hb hl h => ?_⟩
  obtain ⟨-, rfl⟩ | ⟨w, rest, i, -, -, -, hi⟩ | ⟨c, rest, hinputs, -, -⟩ := step_next h
  · exact .inl hl
  · obtain ⟨-, hopen⟩ := exec_next_accepts hi
    cases hl.symm.trans hopen
  · exact .inr ⟨c, rest, hinputs⟩

/-! ### The order of the REASONs (R213) -/

/-- A code no row of R74's table has is unassigned. -/
theorem decode_unassigned_of_maskTable {w : OpWord}
    (h : ¬∃ row ∈ maskTable, w.extractLsb' 56 8 = row.2.1.extractLsb' 56 8) : decode w = .error .unassigned := by
  refine decode_unassigned_iff.mpr fun r hr ho => h ⟨(r.mnemonic, r.matchWord, r.maskWord), ?_, ?_⟩
  · rw [maskTable_eq_map_rows]
    exact List.mem_map_of_mem hr
  · exact ho.symm.trans (extractLsb'_matchWord r).symm

/-- Settles O6: the word alone decides REASONs 1 and 2, and a word that meets a mask is an operation, which CLOSED refuses. -/
theorem lowestReasonReported : Obligations.LowestReasonReported := by
  unfold Obligations.LowestReasonReported
  intro w s hb hl assigned fits
  refine ⟨fun hassigned => ?_, ?_, ?_, rfl, rfl, rfl⟩
  · exact present_of_decode_error hb (decode_unassigned_of_maskTable hassigned)
  · rintro ⟨row, hrow, hopc⟩ hfits
    exact (reservedBitRefused row hrow w s [] hb hopc fun hmask => hfits ⟨row, hrow, hmask⟩).1
  · rintro ⟨row, hrow, hmask⟩
    obtain ⟨i, hd, -⟩ := (maskAndMatchDecide.1 row hrow w).mp hmask
    rw [present_of_decode_ok hb hd, exec_of_closed i hb hl]

/-! ### The host's answer to a refusal (R211, R218; log entry 6) -/

theorem step_cons {s : State} {x : HostInput} {rest : List HostInput} (hi : s.inputs = x :: rest) :
    step s = takeInput x { s with inputs := rest } := by
  rw [step, stepPort, hi]

/-- A refused input is taken from the host's list and answered with the refusal's result word, where it has one. -/
theorem serve_of_refused {s : State} {x : HostInput} {rest : List HostInput} {r : Refusal} (hi : s.inputs = x :: rest)
    (h : takeInput x { s with inputs := rest } = .refused r) :
    serve s = { s with inputs := rest, results := s.results ++ r.result.toList } := by
  simp only [serve, hi, h]
  cases r.result with
  | none => simp
  | some w => rfl

/-- Settles O13: the step is the refusal, and the answer is its result word. -/
theorem refusalOnlyAnswers : Obligations.RefusalOnlyAnswers := by
  unfold Obligations.RefusalOnlyAnswers
  intro s x rest r hi h
  refine ⟨(step_cons hi).trans h, r.result.toList, serve_of_refused hi h, fun k hk => ?_, fun hk => ?_⟩
  · rw [Refusal.result, hk]
    rfl
  · rw [Refusal.result, hk]
    rfl

end Sys2Proof.Machine

/-! # Proofs about reset and the hazards of the wire (`70_reset_and_hazards.md`)

A reset primes the pins and sets every register (R230 to R232); every step keeps the trace whole items (R240); the levels DIO moves between
with CLK high in a byte slot and in a STOP (R242, R244); the number of events of each operation (R251); and the runs of a host that keeps its
framing duties (R243, R244, R249). -/

namespace Sys2Proof.Machine

open Sys2Proof

/-! ### The trace stays whole items (R240, R81) -/

theorem Wired.keeps_traceFramed {s t : State} {items : List Slot} (h : Wired s t items) (hs : s.traceFramed) :
    t.traceFramed := by
  obtain ⟨before, htrace, hframe, hlines, hdrawn⟩ := hs
  refine ⟨before ++ items, ?_, ?_, ?_, ?_⟩
  · rw [h.trace, htrace, wireEvents_append]
  · rw [h.frame, hframe, frameAfter_append]
  · rw [h.lines, hlines, linesAfter_append]
  · rw [h.drawn, hdrawn, byteCount_append]

/-- A reset's first item, the pin priming, sets FRAME and the levels whatever stood before it. -/
theorem applyReset_keeps_traceFramed (c : Config) (s : State) (hs : s.traceFramed) : (applyReset c s).traceFramed := by
  obtain ⟨before, htrace, -, -, hdrawn⟩ := hs
  obtain ⟨items, -, hrtrace, hrframe, hrlines, hrdrawn, -, -⟩ := applyReset_wire c s
  refine ⟨before ++ .reset :: items, ?_, ?_, ?_, ?_⟩
  · rw [hrtrace, htrace, wireEvents_append]
  · rw [hrframe, frameAfter_append]
    rfl
  · rw [hrlines, linesAfter_append]
    rfl
  · rw [hrdrawn, hdrawn, byteCount_append]
    rfl

/-- Settles O51: the items of an operation, or of a reset, follow those the trace already holds. -/
theorem stepKeepsTraceFramed : Obligations.StepKeepsTraceFramed := by
  unfold Obligations.StepKeepsTraceFramed
  intro s t hs h
  exact step_keeps (fun _ _ hu => hu) (fun _ _ _ hd => hd.1.keeps_traceFramed) applyReset_keeps_traceFramed hs h

/-! ### Reset (R230 to R232) -/

/-- R232: the brightness frames follow the pin priming, and record the step that priming has recorded. -/
theorem applyReset_eq (c : Config) (s : State) :
    applyReset c s =
      if c.initEmitsBrightness then
        (primed c s).afterFrames (controlSlots (primed c s) 0 (disp c c.resetPwr (brightStep c.initBrightness)))
      else primed c s := by
  rw [applyReset, brightSeq_eq]
  rfl

/-- Settles O37: a well-formed configuration is accepted, and `Reset()` is the priming and then `BrightSeq` where the parameter asks for it. -/
theorem resetSetsEverything : Obligations.ResetSetsEverything := by
  unfold Obligations.ResetSetsEverything
  intro c s rest hwf hi step3 r
  have hr : primed c { s with inputs := rest } = r := by
    rw [primed_eq, brightStep_eq_ofNat]
    rfl
  rw [step_cons hi, takeInput, takeReset, if_pos hwf, applyReset_eq, hr, brightStep_eq_ofNat]
  rfl

/-! ### Event counts (R251) -/

theorem length_wireEvents_controlSlots (s : State) (k : Nat) (c : Byte) :
    (wireEvents (controlSlots s k c)).length = 72 := by
  simp [controlSlots, wireEvents, Slot.events, length_byteSlot]

theorem length_wireEvents_writesSlots (s : State) (k : Nat) (ws : List (Nat × Byte)) :
    (wireEvents (writesSlots s k ws)).length = 100 * ws.length := by
  induction ws generalizing k with
  | nil => rfl
  | cons w ws ih =>
    rw [writesSlots, wireEvents_append, List.length_append, length_wireEvents_writeSlots, ih, List.length_singleton,
      List.length_cons]
    omega

/-- SET_INT writes one position for each frame R146 (h) counts. -/
theorem length_intShown (cod : Coding) (n : Value) (colon : Bool) : (intShown cod n colon).length = intFrames n := by
  unfold intShown intFrames
  split_ifs with hzero hsign
  · rfl
  · simp [hsign]
  · simp [hsign]

/-- The sign stands beside one or two digits alone, so there are never more than four frames. -/
theorem intFrames_range (n : Value) : 1 ≤ intFrames n ∧ intFrames n ≤ 4 := by
  have hdigits : 1 ≤ digitsShown n ∧ digitsShown n ≤ 4 := by
    simp only [digitsShown]
    split_ifs <;> omega
  unfold intFrames
  split_ifs with hzero
  · omega
  · cases hsign : signShown n with
    | false => simpa using hdigits
    | true =>
      have hfew : digitsShown n < 3 := by simpa using (Bool.and_eq_true_iff.mp hsign).2
      simp only [Bool.toNat_true]
      omega

/-- The items of each operation have the number of events R251 gives it. -/
theorem length_wireEvents_itemsOf (i : Instr) (s : State) : (wireEvents (itemsOf i s)).length = eventCount i := by
  cases i with
  | txByte b => simp [itemsOf, eventCount, wireEvents, Slot.events, length_byteSlot]
  | start | stop | decode | setCoding => rfl
  | sendCmd b st | sendData b st =>
    cases st <;> simp [itemsOf, eventCount, wireEvents, Slot.events, length_byteSlot]
  | beginWrite p => exact length_wireEvents_beginSlots s 0 p
  | clear | setBlank | testAll | setHours | setMinutes => exact length_wireEvents_writeSlots s 0 _ _
  | setInt n colon =>
    rw [itemsOf, length_wireEvents_writesSlots, intWrites_eq_intShown, length_intShown]
    rfl
  | close =>
    rw [itemsOf, wireEvents_append, List.length_append, length_wireEvents_writeSlots, length_wireEvents_controlSlots]
    rfl
  | setPower | setBright => exact length_wireEvents_controlSlots s 0 _

theorem length_primed_trace (c : Config) (s : State) : (primed c s).trace.length = s.trace.length + 4 := by
  rw [primed_eq]
  simp [wireEvents, Slot.events]

theorem length_applyReset_trace (c : Config) (s : State) :
    (applyReset c s).trace.length = s.trace.length + resetEventCount c := by
  rw [applyReset_eq, resetEventCount]
  split_ifs
  · rw [(wired_control (primed c s) _).trace, List.length_append, length_primed_trace, length_wireEvents_controlSlots]
  · exact length_primed_trace c s

/-- Settles O40: an operation appends the events of its items, and a reset those of the priming and of the brightness frames. -/
theorem eventCounts : Obligations.EventCounts := by
  unfold Obligations.EventCounts
  refine ⟨fun i s t h => ?_, fun n colon => ?_, length_applyReset_trace⟩
  · rw [(exec_next h).1.trace, List.length_append, length_wireEvents_itemsOf]
  · have := intFrames_range n
    simp only [eventCount]
    omega

/-! ### Edges of STOP and of a byte slot (R242, R244; log entry 18) -/

/-- A STOP that finds both lines high drops DIO with CLK high first, which is a START condition. -/
theorem conditions_stop (c d : Level) :
    conditions c d Slot.stop.events = if c = .high ∧ d = .high then [.start, .stop] else [.stop] := by
  cases c <;> cases d <;> rfl

/-- Settles O48: the events of STOP are one STOP item, and the levels it finds decide whether it drops DIO with CLK high. -/
theorem stopOutsideFrameDrivesStart : Obligations.StopOutsideFrameDrivesStart := by
  unfold Obligations.StopOutsideFrameDrivesStart
  intro s ha
  obtain ⟨t, ht⟩ := exec_completes .stop ha
  have hevents : t.trace.drop s.trace.length = Slot.stop.events := by
    rw [(exec_next ht).1.trace, List.drop_left]
    rfl
  refine ⟨t, ht, ?_, ?_, ?_⟩ <;> rw [hevents, conditions_stop]
  · exact fun hclk hdio => if_pos ⟨hclk, hdio⟩
  · exact fun _ hdio => if_neg (by simp [hdio])
  · exact fun hclk => if_neg (by simp [hclk])

/-- An acknowledgement slot makes no condition up to its `Dir(DIO, output)`; its `Lvl(DIO, high)` then makes a rising edge with CLK high where
the slot found DIO low; and its last event makes none. -/
theorem conditions_take_ackSlot (v : Bool) (l : Level) :
    conditions .high (bitLevel v) ((ackSlot l).take 5) = [] ∧
      conditions .high (bitLevel v) ((ackSlot l).take 6) = (if v = true then [] else [.stop]) ∧
      conditions .high (bitLevel v) ((ackSlot l).take 7) = if v = true then [] else [.stop] := by
  cases v <;> exact ⟨rfl, rfl, rfl⟩

/-- Settles O49: the bit slots move DIO with CLK low alone and leave CLK high with DIO at bit 7's level, which the acknowledgement slot finds. -/
theorem byteSlotEdgeOnlyAfterAck : Obligations.ByteSlotEdgeOnlyAfterAck := by
  unfold Obligations.ByteSlotEdgeOnlyAfterAck
  intro b l c d
  have hbits : conditions c d ((bitsOf b).flatMap bitSlot) = [] := conditions_flatMap_bitSlot c d _
  obtain ⟨h5, h6, h7⟩ := conditions_take_ackSlot (b.getLsbD 7) l
  refine ⟨(bitsOf b).flatMap bitSlot, byteSlot_eq_flatMap b l, rfl, hbits, h5, h6, h7, ?_⟩
  rw [byteSlot_eq_flatMap, conditions_append, hbits]
  exact h7

/-! ### The phases of a disciplined host (R243, R244, R249) -/

/-- The FRAME that goes with a phase. -/
def Phase.frame : Phase → Frame
  | .idle => .idle
  | .fresh | .command | .stream _ _ => .opened

/-- It is the FRAME that `Phase.agrees` asks for. -/
theorem Phase.agrees_iff (p : Phase) (s : State) : p.agrees s ↔ s.frame = p.frame := by
  unfold Phase.agrees
  cases p <;> cases s.frame <;> simp [Phase.frame]

theorem Phase.frame_of_first {c : Config} {b : Byte} {q : Phase} (h : Phase.first c b = some q) : q.frame = .opened := by
  unfold Phase.first at h
  split_ifs at h
  · cases h
    rfl
  · cases h
    rfl

theorem Phase.frame_of_start {p q : Phase} (h : p.start = some q) : q.frame = .opened := by
  cases p with
  | stream a owed => cases owed <;> cases h; rfl
  | idle | fresh | command => cases h; rfl

/-- A byte is sent inside a frame, and leaves it open. -/
theorem Phase.frame_of_byte {c : Config} {b : Byte} {p q : Phase} (h : p.byte c b = some q) :
    p.frame = .opened ∧ q.frame = .opened := by
  cases p with
  | idle => cases h
  | fresh => exact ⟨rfl, Phase.frame_of_first h⟩
  | command => cases h; exact ⟨rfl, rfl⟩
  | stream a owed =>
    simp only [Phase.byte] at h
    split_ifs at h
    cases h
    exact ⟨rfl, rfl⟩

/-- A STOP is sent inside a frame, and closes it. -/
theorem Phase.frame_of_stop {p q : Phase} (h : p.stop = some q) : p.frame = .opened ∧ q.frame = .idle := by
  cases p with
  | idle => cases h
  | stream a owed => cases owed <;> cases h; exact ⟨rfl, rfl⟩
  | fresh | command => cases h; exact ⟨rfl, rfl⟩

/-- A composed operation is issued with no frame open, and leaves none. -/
theorem Phase.idle_of_composed {c : Config} {i : Instr} (hi : composed i = true) {p q : Phase} (h : p.op c i = some q) :
    p = .idle ∧ q = .idle := by
  cases i with
  | txByte | sendCmd | sendData | beginWrite | start | stop | decode | setCoding => cases hi
  | clear | setBlank | testAll | setInt | setHours | setMinutes | close | setPower | setBright =>
    simp only [Phase.op] at h
    split_ifs at h with hp
    cases h
    exact ⟨hp, rfl⟩

/-! ### Items that keep every byte and STOP inside a frame -/

/-- From FRAME `f`, every byte and STOP of a run of items stands inside a frame, and the run leaves FRAME `g`. -/
def KeepsFrames (f : Frame) (items : List Slot) (g : Frame) : Prop :=
  framesWhole f items = true ∧ frameAfter f items = g

theorem framesWhole_nil (f : Frame) : framesWhole f [] = true := by cases f <;> rfl

theorem framesWhole_append (f : Frame) (a b : List Slot) :
    framesWhole f (a ++ b) = (framesWhole f a && framesWhole (frameAfter f a) b) := by
  induction a generalizing f with
  | nil => simp [framesWhole_nil, frameAfter]
  | cons x a ih => cases f <;> cases x <;> simp [framesWhole, frameAfter, ih]

theorem KeepsFrames.append {f g e : Frame} {a b : List Slot} (ha : KeepsFrames f a g) (hb : KeepsFrames g b e) :
    KeepsFrames f (a ++ b) e := by
  obtain ⟨hwhole, rfl⟩ := ha
  constructor
  · rw [framesWhole_append, hwhole, hb.1, Bool.and_self]
  · rw [frameAfter_append, hb.2]

theorem keepsFrames_start {p q : Phase} (h : p.start = some q) : KeepsFrames p.frame [.start] q.frame := by
  rw [Phase.frame_of_start h]
  cases p <;> exact ⟨rfl, rfl⟩

theorem keepsFrames_byte {c : Config} {b : Byte} {p q : Phase} (h : p.byte c b = some q) (l : Level) :
    KeepsFrames p.frame [.byte b l] q.frame := by
  obtain ⟨hp, hq⟩ := Phase.frame_of_byte h
  rw [hp, hq]
  exact ⟨rfl, rfl⟩

theorem keepsFrames_stop {p q : Phase} (h : p.stop = some q) : KeepsFrames p.frame [.stop] q.frame := by
  obtain ⟨hp, hq⟩ := Phase.frame_of_stop h
  rw [hp, hq]
  exact ⟨rfl, rfl⟩

theorem keepsFrames_stopIf {p q : Phase} {st : Bool} (h : p.stopIf st = some q) :
    KeepsFrames p.frame (if st then [.stop] else []) q.frame := by
  cases st with
  | true => exact keepsFrames_stop h
  | false =>
    cases h
    exact ⟨framesWhole_nil _, rfl⟩

theorem keepsFrames_composed {c : Config} {i : Instr} (hi : composed i = true) {p q : Phase} (h : p.op c i = some q)
    (s : State) : KeepsFrames p.frame (itemsOf i s) q.frame := by
  obtain ⟨rfl, rfl⟩ := Phase.idle_of_composed hi h
  have run := frameRun_itemsOf hi s
  exact ⟨run.framesWhole_eq_true, run.frameAfter_eq_idle (.inl rfl)⟩

/-- An operation the checker accepts keeps its bytes and STOPs inside a frame, and leaves the FRAME of the phase it leads to. -/
theorem keepsFrames_itemsOf {c : Config} {p q : Phase} {i : Instr} (h : p.op c i = some q) (s : State) :
    KeepsFrames p.frame (itemsOf i s) q.frame := by
  cases i with
  | txByte b => exact keepsFrames_byte h _
  | start => exact keepsFrames_start h
  | stop => exact keepsFrames_stop h
  | sendCmd b st =>
    obtain ⟨r, hr, hstop⟩ := Option.bind_eq_some_iff.mp h
    obtain ⟨u, hstart, hbyte⟩ := Option.bind_eq_some_iff.mp hr
    exact ((keepsFrames_start hstart).append (keepsFrames_byte hbyte _)).append (keepsFrames_stopIf hstop)
  | sendData b st =>
    obtain ⟨r, hbyte, hstop⟩ := Option.bind_eq_some_iff.mp h
    exact (keepsFrames_byte hbyte _).append (keepsFrames_stopIf hstop)
  | beginWrite a =>
    obtain ⟨r, hstart, rfl⟩ := Option.map_eq_some_iff.mp h
    have hrest : KeepsFrames r.frame ((beginSlots s 0 a).drop 1) .opened := by
      rw [Phase.frame_of_start hstart]
      exact ⟨rfl, rfl⟩
    exact (keepsFrames_start hstart).append hrest
  | decode | setCoding =>
    cases h
    exact ⟨framesWhole_nil _, rfl⟩
  | clear | setBlank | testAll | setInt | setHours | setMinutes | close | setPower | setBright =>
    exact keepsFrames_composed rfl h s

/-! ### Runs of a disciplined host -/

/-- The host's list of inputs for a list of operations (R70). -/
def wordsOf (is : List Instr) : List HostInput := is.map fun i => .op (encode i)

theorem run_succ {s u : State} (h : step s = .next u) (n : Nat) :
    Host.Core.run core (n + 1) s = Host.Core.run core n u := by
  have hcore : core.step s = .next u := h
  simp only [Host.Core.run, hcore]

/-- An accepting state runs the next operation of the list, and accepts what follows unless that operation is CLOSE. -/
theorem step_wordsOf_cons {s : State} {i : Instr} {is : List Instr} (ha : s.accepts) (hi : s.inputs = wordsOf (i :: is)) :
    ∃ u, step s = .next u ∧ Does i { s with inputs := wordsOf is } u ∧ (i ≠ .close → u.accepts) := by
  obtain ⟨hb, hl⟩ := ha
  obtain ⟨u, hu⟩ := exec_completes i (s := { s with inputs := wordsOf is }) ⟨hb, hl⟩
  have hdoes := exec_next hu
  refine ⟨u, ?_, hdoes, fun hclose => ⟨hdoes.1.built.trans hb, ?_⟩⟩
  · rw [stepRunsDecodedOperation.1 s (encode i) (wordsOf is) i hb hi (decode_encode i), hu]
  · rw [hdoes.2.life]
    cases i with
    | close => exact absurd rfl hclose
    | _ => exact hl

/-- The run of a list of operations the checker takes from phase `p` to phase `q`. The block need accept only where an operation is left,
so a CLOSE may stand last. -/
theorem run_of_ops (is : List Instr) {s : State} {p q : Phase} (ha : is ≠ [] → s.accepts) (hframe : s.frame = p.frame)
    (hclose : ∀ i ∈ is.dropLast, i ≠ .close) (hi : s.inputs = wordsOf is) (hops : p.ops s.cfg is = some q) :
    ∃ t items, Host.Core.run core is.length s = .next t ∧ t.trace = s.trace ++ wireEvents items ∧
      KeepsFrames p.frame items q.frame ∧ t.frame = q.frame ∧ t.inputs = [] ∧
      t.results.length = s.results.length + is.length := by
  induction is generalizing s p with
  | nil =>
    cases hops
    exact ⟨s, [], rfl, (List.append_nil _).symm, ⟨framesWhole_nil _, rfl⟩, hframe, hi, rfl⟩
  | cons i is ih =>
    obtain ⟨r, hop, hrest⟩ := Option.bind_eq_some_iff.mp hops
    obtain ⟨u, hstep, ⟨wire, registers⟩, hopen⟩ := step_wordsOf_cons (ha (List.cons_ne_nil _ _)) hi
    have hkeeps := keepsFrames_itemsOf hop { s with inputs := wordsOf is }
    have hu : u.frame = r.frame := by rw [wire.frame, ← hkeeps.2, ← hframe]
    have hnext : is ≠ [] → u.accepts := fun hne =>
      hopen (hclose i (by rw [List.dropLast_cons_of_ne_nil hne]; exact List.mem_cons_self))
    have hlater : ∀ j ∈ is.dropLast, j ≠ .close := fun j hj => by
      have hne : is ≠ [] := fun hnil => by simp [hnil] at hj
      exact hclose j (by rw [List.dropLast_cons_of_ne_nil hne]; exact List.mem_cons_of_mem i hj)
    obtain ⟨t, items, hrun, htrace, hitems, htframe, hinputs, hresults⟩ :=
      ih hnext hu hlater wire.inputs (by rw [wire.cfg]; exact hrest)
    refine ⟨t, _, (run_succ hstep is.length).trans hrun, ?_, hkeeps.append hitems, htframe, hinputs, ?_⟩
    · rw [htrace, wire.trace, wireEvents_append, List.append_assoc]
    · rw [hresults, registers.results, List.length_append, List.length_singleton, List.length_cons, Nat.add_assoc,
        Nat.add_comm 1]

/-- Settles O56: the checker takes the list from no frame open to no frame open, and the run follows it phase by phase. -/
theorem disciplinedRunKeepsFraming : Obligations.DisciplinedRunKeepsFraming := by
  unfold Obligations.DisciplinedRunKeepsFraming
  intro s is ha hframe hclose hdisciplined
  obtain ⟨t, items, hrun, htrace, hkeeps, htframe, hinputs, hresults⟩ :=
    run_of_ops is (s := { s with inputs := wordsOf is }) (p := .idle) (q := .idle) (fun _ => ha) hframe hclose rfl
      (beq_iff_eq.mp hdisciplined)
  exact ⟨t, items, hrun, htrace, hkeeps.1, htframe, hinputs, hresults⟩

end Sys2Proof.Machine
